-- ==== Sys2Proof/Config.lean ====
section
/-! DEFINITION. The parameters of the built instance (00_scope.md R3) and the character codes of
30_encoding.md R35. Every rule of the model is written against these names (92_eei_decisions.md D6). -/

namespace Sys2Proof.Config

/-- Payload buffer capacity in bytes, which is the maximum frame length. -/
def CAP : Nat := 40
/-- First terminator byte, carriage return. -/
def CR : BitVec 8 := 0x0D
/-- Second terminator byte, line feed. -/
def LF : BitVec 8 := 0x0A
/-- Tag byte of a trace frame, `'T'` (93 G1: the ASCII code). -/
def TAG_TRACE : BitVec 8 := 0x54
/-- Tag byte of an application frame, `'A'` (93 G1). -/
def TAG_APP : BitVec 8 := 0x41
/-- First sub-type byte of a temperature frame, `'5'` (93 G1). -/
def SUB_TEMP0 : BitVec 8 := 0x35
/-- Second sub-type byte of a temperature frame, `'4'` (93 G1). -/
def SUB_TEMP1 : BitVec 8 := 0x34
/-- Least total frame length for temperature decoding. -/
def TEMP_MIN_LEN : Nat := 7
/-- Numerator of the temperature scale. -/
def SCALE_NUM : Nat := 3140
/-- Denominator of the temperature scale. -/
def SCALE_DEN : Nat := 1023
/-- Subtracted after scaling. -/
def OFFSET : Nat := 500
/-- The final division, from tenths of a degree to degrees. -/
def DIVISOR : Nat := 10
/-- First byte of every command frame, `'L'`. -/
def TAG_LED : BitVec 8 := 0x4C
/-- Selector code red, `'R'`. -/
def SEL_RED : BitVec 8 := 0x52
/-- Selector code green, `'G'` (93 G1). -/
def SEL_GREEN : BitVec 8 := 0x47
/-- Selector code blue, `'B'` (93 G1). -/
def SEL_BLUE : BitVec 8 := 0x42
/-- Selector code off, the digit `'0'` (93 G1; 43_commands.md R85 (c)). -/
def SEL_OFF : BitVec 8 := 0x30
/-- Width of the cursor register: the least `w` with `2^w > CAP` (92 D5). -/
abbrev CURW : Nat := 6
/-- Width of the signed temperature output (92 D13). -/
abbrev T10W : Nat := 19

/-- `'0'`, the first decimal digit (93 G1). -/
def CH_0 : BitVec 8 := 0x30
/-- `'.'`, the decimal separator of rule R75 (93 G1; 92 D14). -/
def CH_DOT : BitVec 8 := 0x2E
/-- `'-'`, the sign of a negative temperature (93 G1; 92 D14). -/
def CH_MINUS : BitVec 8 := 0x2D

end Sys2Proof.Config
end

