-- ==== Sys2Proof/Word.lean ====
section
/-! DEFINITION. The word types of the block: 00_scope.md R6, 30_encoding.md R34, R42, 42_thermometer.md R76. -/

namespace Sys2Proof

/-- Eight bits, an unsigned integer 0..255 (R6). -/
abbrev Byte := BitVec 8

/-- The value of one hex digit, 0..15 (R76). -/
abbrev Nibble := BitVec 4

/-- The port form of an input symbol, `{marker, byte[7:0]}` (R34). -/
abbrev Sym9 := BitVec 9

/-- The command selector port `sel[1:0]` (R42). -/
abbrev Sel2 := BitVec 2

/-- The temperature magnitude, unsigned (R72). -/
abbrev Mag := BitVec 16

/-- Tenths of a degree Celsius, two's complement (R74). -/
abbrev T10 := BitVec Config.T10W

/-- The cursor register (10_state.md R11). -/
abbrev Cursor := BitVec Config.CURW

/-- A frame value: bytes in arrival order, offset 0 first (10_state.md R15, 20_memory.md R21). -/
abbrev Frame := List Byte

end Sys2Proof
end

