-- ==== Sys2Proof/Syntax.lean ====
section
/-! DEFINITION. The operations of the block, one constructor per row of spec/opcode_table.json, and the raw
forms in which the outside presents them. The block has no instruction set (00_scope.md R1): a row is what the
block does in one step with what stands on an input. -/

namespace Sys2Proof

/-- The assembler's control state `st` (10_state.md R10): one bit, so there is no third value. -/
inductive Ctl where
  /-- `WaitingForTerminatorStart`, encoded 0. -/
  | ws
  /-- `WaitingForTerminatorEnd`, encoded 1. -/
  | we
  deriving DecidableEq, Repr

/-- An input symbol: a byte or the reset marker (30_encoding.md R34). -/
inductive Symbol where
  | byte (b : Byte)
  | reset
  deriving DecidableEq, Repr

/-- The four command selectors (43_commands.md R85). -/
inductive Selector where
  | red | green | blue | off
  deriving DecidableEq, Repr

/-- The rows of the table. A row's operands are the fields its encoding has after its fixed part. -/
inductive Instr where
  /-- R50: the reset marker, in any state. -/
  | feedReset
  /-- R51: the carriage return in `WS`. -/
  | feedWsCr
  /-- R52: another byte in `WS`, buffer not full. -/
  | feedWsData (b : Byte)
  /-- R53: another byte in `WS`, buffer full. -/
  | feedWsOverrun (b : Byte)
  /-- R54: the line feed in `WE`. -/
  | feedWeLf
  /-- R55: another byte in `WE`. -/
  | feedWeOther (b : Byte)
  /-- R56: a byte when `st` is neither `WS` nor `WE`. -/
  | feedBadState (b : Byte)
  /-- R61: the frame of length 0. -/
  | intEmpty
  /-- R62: tag `'T'`, then the text. -/
  | intTrace (text : List Byte)
  /-- R63 and R66: tag `'A'`, sub-type `"54"`, the four digit bytes of offsets 3 to 6, the rest (R39). -/
  | intAppTemp (msHi msLo lsHi lsLo : Byte) (rest : List Byte)
  /-- R63 and R64: tag `'A'`, sub-type `"54"`, fewer than four bytes after it. -/
  | intAppShort (digits : List Byte)
  /-- R63 and R65: tag `'A'`, then a text that does not begin with the sub-type `"54"`. -/
  | intAppOther (text : List Byte)
  /-- R67: any other tag. -/
  | intUnknown (tag : Byte) (rest : List Byte)
  /-- R70, `'0'..'7'` = 00110ddd. -/
  | hexvalDecLo (d : BitVec 3)
  /-- R70, `'8'..'9'` = 0011100d. -/
  | hexvalDecHi (d : BitVec 1)
  /-- R70, `'A'..'F'` = 01000ddd with d from 1 to 6. -/
  | hexvalUpper (d : BitVec 3)
  /-- R70, `'a'..'f'` = 01100ddd with d from 1 to 6. -/
  | hexvalLower (d : BitVec 3)
  /-- R70, any of the 234 other byte values. -/
  | hexvalOther (b : Byte)
  /-- R71. -/
  | hexpair (h l : Byte)
  /-- R72: the bytes of offsets 3, 4, 5, 6. -/
  | magnitude (a b c d : Byte)
  /-- R74. -/
  | temp10 (m : Mag)
  /-- R75. -/
  | render (t : T10)
  /-- R80. -/
  | ledRed
  /-- R81. -/
  | ledGreen
  /-- R82. -/
  | ledBlue
  /-- R83. -/
  | ledOff
  /-- R84. -/
  | serialize (f : Frame)
  deriving DecidableEq, Repr

/-- A pure operation evaluated alone (10_state.md R18, 41_interpreter.md R69), in the table's raw format. -/
inductive PureRequest where
  /-- FRAME: `interpret` of a byte sequence. -/
  | frame (f : Frame)
  /-- BYTE8: `hexval` of a byte. -/
  | hexByte (b : Byte)
  /-- FUNC: `hexpair` of {h, l}. -/
  | pair (w : BitVec 16)
  /-- FUNC: `magnitude` of {f[3], f[4], f[5], f[6]}. -/
  | quad (w : BitVec 32)
  /-- FUNC: `temp10` of m. -/
  | mag (m : Mag)
  /-- FUNC: `render` of t10. -/
  | tenths (t : T10)
  /-- WIRE: `serialize` of a frame. -/
  | wire (f : Frame)
  deriving DecidableEq, Repr

/-- One operation presented to the block, undecoded. -/
inductive Request where
  /-- SYM9 on the symbol input port (30_encoding.md R34, R47). -/
  | symbol (sym : Sym9)
  /-- SEL2 on the command request port (30_encoding.md R42, R47). -/
  | select (sel : Sel2)
  /-- A pure operation evaluated alone. -/
  | alone (r : PureRequest)
  deriving DecidableEq, Repr

/-- What the outside presents in one step. -/
inductive Stim where
  /-- The input ports of one clock (30_encoding.md R47): `rst`; the symbol where `in_valid` = 1; the selector where
  `cmd_valid` = 1. -/
  | clock (rst : Bool) (sym : Option Sym9) (cmd : Option Sel2)
  /-- One pure operation evaluated alone, with no port active. -/
  | alone (r : PureRequest)
  deriving DecidableEq, Repr

end Sys2Proof
end

