-- ==== Sys2Proof/WellFormed.lean ====
section
/-! DEFINITION. When an instruction's operands are ones its row of the table admits, and in which assembler state its
row is selected (30_encoding.md R36, R38, R40). -/

namespace Sys2Proof

/-- The bytes at offsets 1 and 2 are the temperature sub-type; an absent byte is a mismatch (41_interpreter.md R65 (a)).
The argument is the frame without its tag. -/
def startsWithSubType : List Byte → Bool
  | a :: b :: _ => a == Config.SUB_TEMP0 && b == Config.SUB_TEMP1
  | _ => false

/-- The five digit patterns of rule R40; every other byte is HEXVAL.OTHER's. -/
def isHexDigit (b : Byte) : Bool :=
  (0x30 ≤ b && b ≤ 0x39) || (0x41 ≤ b && b ≤ 0x46) || (0x61 ≤ b && b ≤ 0x66)

/-- The conditions a row of the table puts on its own operands. -/
def Instr.wellFormed : Instr → Bool
  | .feedReset => true
  | .feedWsCr => true
  | .feedWsData b => b != Config.CR
  | .feedWsOverrun b => b != Config.CR
  | .feedWeLf => true
  | .feedWeOther b => b != Config.LF
  | .feedBadState _ => true
  | .intEmpty => true
  | .intTrace _ => true
  | .intAppTemp _ _ _ _ _ => true
  | .intAppShort digits => 3 + digits.length < Config.TEMP_MIN_LEN
  | .intAppOther text => !startsWithSubType text
  | .intUnknown tag _ => tag != Config.TAG_TRACE && tag != Config.TAG_APP
  | .hexvalDecLo _ => true
  | .hexvalDecHi _ => true
  | .hexvalUpper d => 1 ≤ d && d ≤ 6
  | .hexvalLower d => 1 ≤ d && d ≤ 6
  | .hexvalOther b => !isHexDigit b
  | .hexpair _ _ => true
  | .magnitude _ _ _ _ => true
  | .temp10 _ => true
  | .render _ => true
  | .ledRed => true
  | .ledGreen => true
  | .ledBlue => true
  | .ledOff => true
  | .serialize _ => true

/-- The assembler states in which the table selects a row (30_encoding.md R36, columns `st before` and `cur`). The rows of
the other units do not look at the assembler. FEED.BADSTATE is selected in no state: `st` has one bit (R56). -/
def Instr.selectedIn (st : Ctl) (cur : Cursor) : Instr → Bool
  | .feedReset => true
  | .feedWsCr => st == .ws
  | .feedWsData _ => st == .ws && cur.toNat < Config.CAP
  | .feedWsOverrun _ => st == .ws && cur.toNat == Config.CAP
  | .feedWeLf => st == .we
  | .feedWeOther _ => st == .we
  | .feedBadState _ => false
  | .intEmpty => true
  | .intTrace _ => true
  | .intAppTemp _ _ _ _ _ => true
  | .intAppShort _ => true
  | .intAppOther _ => true
  | .intUnknown _ _ => true
  | .hexvalDecLo _ => true
  | .hexvalDecHi _ => true
  | .hexvalUpper _ => true
  | .hexvalLower _ => true
  | .hexvalOther _ => true
  | .hexpair _ _ => true
  | .magnitude _ _ _ _ => true
  | .temp10 _ => true
  | .render _ => true
  | .ledRed => true
  | .ledGreen => true
  | .ledBlue => true
  | .ledOff => true
  | .serialize _ => true

end Sys2Proof
end

