-- ==== Sys2Proof/Decode.lean ====
section
/-! DEFINITION. The decode tables of 30_encoding.md R36, R38, R40, R42 as total functions, the encoder written from the
same tables, the SYM9, FRAME, CMD16 and BYTE8 rows of spec/opcode_table.json as data, and the reading of a bare table word. -/

namespace Sys2Proof

/-- Why bits name no row. -/
inductive DecodeError where
  /-- SYM9: a byte that is not the carriage return, in `WS`, with `cur` above CAP: R36 has no row for it.
  No run reaches such a cursor (10_state.md R11). -/
  | cursorOutOfRange
  /-- CMD16: 16 bits that are none of the four command frames (R42). -/
  | notACommandFrame
  /-- WIRE: bytes that do not end in 0x0D 0x0A (R84). -/
  | noTerminator
  /-- A table word of a length that no format of the table has. -/
  | noSuchFormat
  deriving DecidableEq, Repr

/-! ### SYM9 (R34, R36, 60_exceptions.md R90) -/

/-- The symbol a 9-bit port value denotes; the byte field of a marker is ignored (R34; 93 U9). -/
def symbolOf (sym : Sym9) : Symbol :=
  if sym.getLsbD 8 then .reset else .byte (sym.extractLsb' 0 8)

/-- The 9-bit form of a symbol; the marker is written with a zero byte field, as in 95_test_vectors.md. -/
def Symbol.bits : Symbol → Sym9
  | .byte b => (0#1 ++ b : BitVec 9)
  | .reset => 0x100

/-- R36 on the abstract symbol: the marker first, then `st`, then one byte comparison, then (in `WS`) the capacity. -/
def decodeByteOrMarker (st : Ctl) (cur : Cursor) : Symbol → Except DecodeError Instr
  | .reset => .ok .feedReset
  | .byte b =>
    match st with
    | .ws =>
      if b = Config.CR then .ok .feedWsCr
      else if cur.toNat < Config.CAP then .ok (.feedWsData b)
      else if cur.toNat = Config.CAP then .ok (.feedWsOverrun b)
      else .error .cursorOutOfRange
    | .we => if b = Config.LF then .ok .feedWeLf else .ok (.feedWeOther b)

/-- R36 on the 9-bit port value. -/
def decodeSymbol (st : Ctl) (cur : Cursor) (sym : Sym9) : Except DecodeError Instr :=
  decodeByteOrMarker st cur (symbolOf sym)

/-! ### FRAME (R38) -/

/-- The tests after the sub-type has matched: the length against TEMP_MIN_LEN (R63). The argument is the frame from offset 3. -/
def decodeTemp : List Byte → Instr
  | a :: b :: c :: d :: rest => .intAppTemp a b c d rest
  | digits => .intAppShort digits

/-- The application classes (R63). The argument is the frame without its tag. -/
def decodeApp (text : List Byte) : Instr :=
  if startsWithSubType text then decodeTemp (text.drop 2) else .intAppOther text

/-- R38, in the order of tests of 60_exceptions.md R90: length zero, tag, sub-type, length. -/
def decodeFrame : Frame → Instr
  | [] => .intEmpty
  | tag :: text =>
    if tag = Config.TAG_TRACE then .intTrace text
    else if tag = Config.TAG_APP then decodeApp text
    else .intUnknown tag text

/-! ### BYTE8 (R40) -/

/-- R40 by the bit patterns of the table: a pattern of the upper bits, and for the letters a condition on d. -/
def decodeHexByte (b : Byte) : Instr :=
  let hi5 := b.extractLsb' 3 5
  let d := b.extractLsb' 0 3
  if hi5 = 0b00110#5 then .hexvalDecLo d
  else if b.extractLsb' 1 7 = 0b0011100#7 then .hexvalDecHi (b.extractLsb' 0 1)
  else if hi5 = 0b01000#5 ∧ 1 ≤ d ∧ d ≤ 6 then .hexvalUpper d
  else if hi5 = 0b01100#5 ∧ 1 ≤ d ∧ d ≤ 6 then .hexvalLower d
  else .hexvalOther b

/-! ### SEL2, CMD16 and WIRE (R42, R84) -/

/-- The selector a 2-bit request denotes; all four values are used (R42). -/
def selectorOf (sel : Sel2) : Selector :=
  if sel = 0 then .red else if sel = 1 then .green else if sel = 2 then .blue else .off

/-- The 2-bit request of a selector (R42). -/
def Selector.bits : Selector → Sel2
  | .red => 0
  | .green => 1
  | .blue => 2
  | .off => 3

/-- The row of a selector. -/
def Selector.instr : Selector → Instr
  | .red => .ledRed
  | .green => .ledGreen
  | .blue => .ledBlue
  | .off => .ledOff

/-- R42: the request port. -/
def decodeSelect (sel : Sel2) : Instr := (selectorOf sel).instr

/-- R42: the two bytes of a command frame, the first byte high. -/
def decodeCommandFrame (w : BitVec 16) : Except DecodeError Instr :=
  if w = Config.TAG_LED ++ Config.SEL_RED then .ok .ledRed
  else if w = Config.TAG_LED ++ Config.SEL_GREEN then .ok .ledGreen
  else if w = Config.TAG_LED ++ Config.SEL_BLUE then .ok .ledBlue
  else if w = Config.TAG_LED ++ Config.SEL_OFF then .ok .ledOff
  else .error .notACommandFrame

/-- R84 read backwards: wire bytes that end in the terminator are the serialisation of what stands before it. -/
def decodeWire : List Byte → Except DecodeError Instr
  | [] => .error .noTerminator
  | [_] => .error .noTerminator
  | [a, b] => if a = Config.CR ∧ b = Config.LF then .ok (.serialize []) else .error .noTerminator
  | a :: bs =>
    match decodeWire bs with
    | .ok (.serialize f) => .ok (.serialize (a :: f))
    | _ => .error .noTerminator

/-! ### All formats -/

/-- A pure operation evaluated alone. -/
def decodePure : PureRequest → Instr
  | .frame f => decodeFrame f
  | .hexByte b => decodeHexByte b
  | .pair w => .hexpair (w.extractLsb' 8 8) (w.extractLsb' 0 8)
  | .quad w => .magnitude (w.extractLsb' 24 8) (w.extractLsb' 16 8) (w.extractLsb' 8 8) (w.extractLsb' 0 8)
  | .mag m => .temp10 m
  | .tenths t => .render t
  | .wire f => .serialize f

/-- The row that a request selects in the assembler state (`st`, `cur`). -/
def decode (st : Ctl) (cur : Cursor) : Request → Except DecodeError Instr
  | .symbol sym => decodeSymbol st cur sym
  | .select sel => .ok (decodeSelect sel)
  | .alone r => .ok (decodePure r)

/-- The request that presents an instruction: the encoder, from the same tables. -/
def encode : Instr → Request
  | .feedReset => .symbol 0x100
  | .feedWsCr => .symbol 0x00D
  | .feedWsData b => .symbol (0#1 ++ b)
  | .feedWsOverrun b => .symbol (0#1 ++ b)
  | .feedWeLf => .symbol 0x00A
  | .feedWeOther b => .symbol (0#1 ++ b)
  | .feedBadState b => .symbol (0#1 ++ b)
  | .intEmpty => .alone (.frame [])
  | .intTrace text => .alone (.frame (Config.TAG_TRACE :: text))
  | .intAppTemp a b c d rest =>
    .alone (.frame ([Config.TAG_APP, Config.SUB_TEMP0, Config.SUB_TEMP1, a, b, c, d] ++ rest))
  | .intAppShort digits => .alone (.frame ([Config.TAG_APP, Config.SUB_TEMP0, Config.SUB_TEMP1] ++ digits))
  | .intAppOther text => .alone (.frame (Config.TAG_APP :: text))
  | .intUnknown tag rest => .alone (.frame (tag :: rest))
  | .hexvalDecLo d => .alone (.hexByte (0b00110#5 ++ d))
  | .hexvalDecHi d => .alone (.hexByte (0b0011100#7 ++ d))
  | .hexvalUpper d => .alone (.hexByte (0b01000#5 ++ d))
  | .hexvalLower d => .alone (.hexByte (0b01100#5 ++ d))
  | .hexvalOther b => .alone (.hexByte b)
  | .hexpair h l => .alone (.pair (h ++ l))
  | .magnitude a b c d => .alone (.quad (a ++ b ++ c ++ d))
  | .temp10 m => .alone (.mag m)
  | .render t => .alone (.tenths t)
  | .ledRed => .select 0
  | .ledGreen => .select 1
  | .ledBlue => .select 2
  | .ledOff => .select 3
  | .serialize f => .alone (.wire f)

/-- The two bytes of a LED row as the table's CMD16 format writes them, the first byte high (R42). -/
def encodeCommandFrame : Selector → BitVec 16
  | .red => 0x4C52
  | .green => 0x4C47
  | .blue => 0x4C42
  | .off => 0x4C30

/-! ### The machine-readable table -/

/-- Each row's mnemonic in spec/opcode_table.json. -/
def Instr.mnemonic : Instr → String
  | .feedReset => "FEED.RESET"
  | .feedWsCr => "FEED.WS.CR"
  | .feedWsData _ => "FEED.WS.DATA"
  | .feedWsOverrun _ => "FEED.WS.OVERRUN"
  | .feedWeLf => "FEED.WE.LF"
  | .feedWeOther _ => "FEED.WE.OTHER"
  | .feedBadState _ => "FEED.BADSTATE"
  | .intEmpty => "INT.EMPTY"
  | .intTrace _ => "INT.TRACE"
  | .intAppTemp _ _ _ _ _ => "INT.APP.TEMP"
  | .intAppShort _ => "INT.APP.SHORT"
  | .intAppOther _ => "INT.APP.OTHER"
  | .intUnknown _ _ => "INT.UNKNOWN"
  | .hexvalDecLo _ => "HEXVAL.DEC.LO"
  | .hexvalDecHi _ => "HEXVAL.DEC.HI"
  | .hexvalUpper _ => "HEXVAL.UPPER"
  | .hexvalLower _ => "HEXVAL.LOWER"
  | .hexvalOther _ => "HEXVAL.OTHER"
  | .hexpair _ _ => "HEXPAIR"
  | .magnitude _ _ _ _ => "MAGNITUDE"
  | .temp10 _ => "TEMP10"
  | .render _ => "RENDER"
  | .ledRed => "LED.RED"
  | .ledGreen => "LED.GREEN"
  | .ledBlue => "LED.BLUE"
  | .ledOff => "LED.OFF"
  | .serialize _ => "SERIALIZE"

/-- The column `state` of a SYM9 row. -/
inductive StateColumn where
  | any
  | only (st : Ctl)
  | neither
  deriving DecidableEq, Repr

/-- The part of a SYM9 row's column `condition` that looks at the cursor. -/
inductive CursorColumn where
  | any
  | below
  | full
  deriving DecidableEq, Repr

/-- A SYM9 row of spec/opcode_table.json; `excluded` is the byte its condition excludes. -/
structure SymRow where
  mnemonic : String
  pattern : Sym9
  mask : Sym9
  state : StateColumn
  excluded : Option Byte
  cursor : CursorColumn
  priority : Nat
  deriving DecidableEq, Repr

/-- The SYM9 rows, as the table lists them. -/
def symTable : List SymRow :=
  [⟨"FEED.RESET", 0x100, 0x100, .any, none, .any, 1⟩,
   ⟨"FEED.WS.CR", 0x00D, 0x1FF, .only .ws, none, .any, 2⟩,
   ⟨"FEED.WS.DATA", 0x000, 0x100, .only .ws, some Config.CR, .below, 3⟩,
   ⟨"FEED.WS.OVERRUN", 0x000, 0x100, .only .ws, some Config.CR, .full, 3⟩,
   ⟨"FEED.WE.LF", 0x00A, 0x1FF, .only .we, none, .any, 2⟩,
   ⟨"FEED.WE.OTHER", 0x000, 0x100, .only .we, some Config.LF, .any, 3⟩,
   ⟨"FEED.BADSTATE", 0x000, 0x100, .neither, none, .any, 4⟩]

/-- Every column of a SYM9 row holds of a symbol in an assembler state. -/
def SymRow.selects (r : SymRow) (st : Ctl) (cur : Cursor) (sym : Sym9) : Bool :=
  (sym &&& r.mask == r.pattern) &&
  (match r.state with
   | .any => true
   | .only st' => st == st'
   | .neither => false) &&
  (match r.excluded with
   | none => true
   | some b => sym.extractLsb' 0 8 != b) &&
  (match r.cursor with
   | .any => true
   | .below => cur.toNat < Config.CAP
   | .full => cur.toNat == Config.CAP)

/-- The fixed part of each row in spec/opcode_table.json: the bits of the word its pattern speaks of, `match`, and `mask`. For the
rows whose `encoding` is a string of letters the mask covers its digits. -/
def Instr.fixedPart : Instr → Nat × Nat × Nat
  | .feedReset => (9, 0x100, 0x100)
  | .feedWsCr => (9, 0x00D, 0x1FF)
  | .feedWsData _ => (9, 0x000, 0x100)
  | .feedWsOverrun _ => (9, 0x000, 0x100)
  | .feedWeLf => (9, 0x00A, 0x1FF)
  | .feedWeOther _ => (9, 0x000, 0x100)
  | .feedBadState _ => (9, 0x000, 0x100)
  | .intEmpty => (0, 0x0, 0x0)
  | .intTrace _ => (8, 0x54, 0xFF)
  | .intAppTemp _ _ _ _ _ => (24, 0x413534, 0xFFFFFF)
  | .intAppShort _ => (24, 0x413534, 0xFFFFFF)
  | .intAppOther _ => (8, 0x41, 0xFF)
  | .intUnknown _ _ => (8, 0x0, 0x0)
  | .hexvalDecLo _ => (8, 0b00110000, 0b11111000)
  | .hexvalDecHi _ => (8, 0b00111000, 0b11111110)
  | .hexvalUpper _ => (8, 0b01000000, 0b11111000)
  | .hexvalLower _ => (8, 0b01100000, 0b11111000)
  | .hexvalOther _ => (8, 0x0, 0x0)
  | .hexpair _ _ => (16, 0x0, 0x0)
  | .magnitude _ _ _ _ => (32, 0x0, 0x0)
  | .temp10 _ => (16, 0x0, 0x0)
  | .render _ => (19, 0x0, 0x0)
  | .ledRed => (16, 0x4C52, 0xFFFF)
  | .ledGreen => (16, 0x4C47, 0xFFFF)
  | .ledBlue => (16, 0x4C42, 0xFFFF)
  | .ledOff => (16, 0x4C30, 0xFFFF)
  | .serialize _ => (16, 0x0D0A, 0xFFFF)

/-- The number whose bytes are `bs`, the first byte most significant. -/
def bytesWord (bs : List Byte) : Nat := bs.foldl (fun n b => n * 256 + b.toNat) 0

/-- The word of a request that a row's `match` and `mask` speak of, `nbits` wide: the port value; the leading bytes of a frame; the
two bytes of the command frame a selector asks for; the last two bytes of the serialised string (R84). -/
def requestWord (nbits : Nat) : Request → Nat
  | .symbol sym => sym.toNat
  | .select sel => (encodeCommandFrame (selectorOf sel)).toNat
  | .alone (.frame f) => bytesWord (f.take (nbits / 8))
  | .alone (.hexByte b) => b.toNat
  | .alone (.pair w) => w.toNat
  | .alone (.quad w) => w.toNat
  | .alone (.mag m) => m.toNat
  | .alone (.tenths t) => t.toNat
  | .alone (.wire f) => bytesWord ((f ++ [Config.CR, Config.LF]).drop f.length)

/-- A request's word has the fixed part of a row. -/
def Instr.fits (i : Instr) (r : Request) : Bool :=
  requestWord i.fixedPart.1 r &&& i.fixedPart.2.2 == i.fixedPart.2.1

/-! ### A bare word of the table -/

/-- The bytes of a word, the most significant first: the order in which a FRAME word names f[0], f[1], ... (20_memory.md R21,
30_encoding.md R38). -/
def wordBytes : Nat → Nat → List Byte
  | 0, _ => []
  | n + 1, w => wordBytes n (w / 256) ++ [BitVec.ofNat 8 w]

/-- The request that a word of `nbits` bits stands for when nothing says which input it stands on. The formats overlap in
length, so the reading has an order (log entry 7).
DESIGN CHOICE, safe: no step reads a bare word; every input of the machine has its own format. -/
def tableRequest (nbits w : Nat) : Except DecodeError Request :=
  if nbits = 0 then .ok (.alone (.frame []))
  else if nbits ≤ 8 then
    if BitVec.ofNat 8 w = Config.TAG_TRACE ∨ BitVec.ofNat 8 w = Config.TAG_APP then .ok (.alone (.frame (wordBytes 1 w)))
    else .ok (.alone (.hexByte (BitVec.ofNat 8 w)))
  else if nbits ≤ 16 then
    if w < 512 then .ok (.symbol (BitVec.ofNat 9 w))
    else
      match decodeCommandFrame (BitVec.ofNat 16 w), decodeWire (wordBytes 2 w) with
      | .ok i, _ => .ok (encode i)
      | _, .ok i => .ok (encode i)
      | _, _ => .ok (.alone (.pair (BitVec.ofNat 16 w)))
  else if nbits ≤ 24 then
    if w < 2 ^ Config.T10W then .ok (.alone (.tenths (BitVec.ofNat Config.T10W w)))
    else .ok (.alone (.frame (wordBytes 3 w ++ [0, 0, 0, 0])))
  else if nbits = 32 then .ok (.alone (.quad (BitVec.ofNat 32 w)))
  else .error .noSuchFormat

/-- The control state in which a SYM9 word's row of least priority number is selected: `WE` for the line feed, else `WS`. -/
def tableCtl (sym : Sym9) : Ctl :=
  if sym = Symbol.bits (.byte Config.LF) then .we else .ws

/-- The instruction a bare table word stands for. A symbol is read in the state `tableCtl` with an empty buffer. -/
def decodeTableWord (nbits w : Nat) : Option Instr :=
  match tableRequest nbits w with
  | .error _ => none
  | .ok (.symbol sym) => (decodeSymbol (tableCtl sym) 0 sym).toOption
  | .ok r => (decode .ws 0 r).toOption

end Sys2Proof
end

