-- ==== Sys2Proof/Machine/State.lean ====
section
/-! DEFINITION. The state of the block (10_state.md), the outputs of its last step, and the reasons a step can stop. -/

namespace Sys2Proof.Machine

/-- The reasons the machine stops with a fault. The block itself never stops (60_exceptions.md R91): both are for states that
no run from reset reaches. -/
inductive Fault where
  /-- Raised by the copy-out of FEED.WE.LF when one of the cells `buf[0..n)` has never been written: the spec gives it no
  content (10_state.md R16). Safe: the model stops where the hardware would emit some byte. -/
  | unwrittenCell (n : Nat)
  /-- Raised by a store at an index, or a copy-out of a length, beyond CAP: `MemWrite` and `MemRead` are not defined there
  (20_memory.md R22, R23; 93 U1: no meaning may be given). Safe. -/
  | outsideBuffer (i : Nat)
  deriving DecidableEq, Repr

/-- The reasons a step gives no meaning. -/
inductive Refusal where
  /-- Raised by an arm of exec that has no meaning yet. Safe. No arm uses it. -/
  | notModelled (mnemonic : String)
  /-- Raised by a meaning that is called although the table does not select its row: the state, the cursor or the operand
  is not the row's (30_encoding.md R36, R38, R40). No decoded instruction raises it. Safe. -/
  | rowNotSelected (mnemonic : String)
  /-- Raised by the step when the table has no row for what is presented. Only a cursor above CAP, which no run reaches, does
  this. Safe. -/
  | undecodable (e : DecodeError)
  deriving DecidableEq, Repr

/-- The assembler's diagnostics (60_exceptions.md R86). -/
inductive AsmDiag where
  | protocolReset
  | unexpectedTerminatorByte
  | bufferOverrun
  | invalidState
  deriving DecidableEq, Repr

/-- The interpreter's diagnostics (60_exceptions.md R86). -/
inductive IntDiag where
  | emptyFrame
  | temperatureFrameTooShort
  | unrecognizedFrame
  | unrecognizedFrameType
  deriving DecidableEq, Repr

/-- A display event: the frame's bytes after the tag (41_interpreter.md R60). -/
inductive Echo where
  | trace (text : List Byte)
  | app (text : List Byte)
  deriving DecidableEq, Repr

/-- What one step of `feed` returns (40_assembler_feed.md R58). -/
structure AsmOut where
  frame : Option Frame
  diag : Option AsmDiag
  deriving DecidableEq, Repr

/-- What one evaluation of `interpret` returns (41_interpreter.md R60). -/
structure IntOut where
  echo : Option Echo
  temp : Option T10
  diag : Option IntDiag
  deriving DecidableEq, Repr

/-- What a command request returns: the frame of `buildLedCommand` (43_commands.md R85) and its wire bytes on `tx_data` (R84). -/
structure CmdOut where
  frame : Option Frame
  tx : Option (List Byte)
  deriving DecidableEq, Repr

/-- The value of a pure operation evaluated alone. -/
inductive PureValue where
  /-- `hexval` (42_thermometer.md R70). -/
  | nibble (v : Nibble)
  /-- `hexpair` (R71). -/
  | byte (v : Byte)
  /-- `magnitude` (R72). -/
  | magnitude (v : Mag)
  /-- `temp10` (R74). -/
  | tenths (v : T10)
  /-- `render` (R75). -/
  | text (v : List Byte)
  /-- `serialize` (43_commands.md R84). -/
  | wire (v : List Byte)
  deriving DecidableEq, Repr

/-- The payload buffer's cells, as (index, byte) pairs: indices strictly rising. An unlisted cell has no value, because the spec
gives the cells none at reset (10_state.md R16; log entry 1).
DESIGN CHOICE, safe: reading an unlisted cell is a fault. -/
abbrev Memory := List Host.Cell

/-- The state of the block. -/
structure State where
  /-- The control state (R10). -/
  st : Ctl
  /-- The write cursor (R11). -/
  cur : Cursor
  /-- The payload buffer (R12). -/
  buf : Memory
  /-- The outputs of `feed` in the last step (R58). DESIGN CHOICE, safe: an output is no state of the block (60_exceptions.md R87),
  and every step overwrites it (log entry 2). -/
  asm : AsmOut
  /-- The outputs of `interpret` in the last step (R60), as `asm`. -/
  int : IntOut
  /-- The outputs of the command unit in the last step (R85), as `asm`. -/
  cmd : CmdOut
  /-- The value of a pure operation evaluated alone in the last step. DESIGN CHOICE, safe: the model's own (log entry 3). -/
  val : Option PureValue
  /-- What the outside will present, one entry a step. DESIGN CHOICE, safe: the outside's, not the block's (log entry 4). -/
  ins : List Stim
  deriving DecidableEq, Repr

/-- No output of the assembler. -/
def AsmOut.none : AsmOut := ⟨.none, .none⟩

/-- No output of the interpreter. -/
def IntOut.none : IntOut := ⟨.none, .none, .none⟩

/-- No output of the command unit. -/
def CmdOut.none : CmdOut := ⟨.none, .none⟩

/-- The state after hardware reset (10_state.md R16, 70_reset_and_hazards.md R100, R101): `WS`, cursor 0, no cell with a value,
every output inactive; nothing presented. -/
def State.reset : State where
  st := .ws
  cur := 0
  buf := []
  asm := AsmOut.none
  int := IntOut.none
  cmd := CmdOut.none
  val := .none
  ins := []

end Sys2Proof.Machine
end

