-- ==== Sys2Proof/Machine/Operands.lean ====
section
/-! DEFINITION. Operand assembly: the thermometer decoder's chain of pure functions (42_thermometer.md R70 to R75) and
the fields of a frame. -/

namespace Sys2Proof.Machine

/-- R70: one hex-ASCII byte to a nibble; any byte that is no hex digit gives 0, with no diagnostic (92 D12). -/
def hexval (b : Byte) : Nibble :=
  if 0x30 ≤ b ∧ b ≤ 0x39 then BitVec.ofNat 4 (b.toNat - 0x30)
  else if 0x41 ≤ b ∧ b ≤ 0x46 then BitVec.ofNat 4 (b.toNat - 0x41 + 10)
  else if 0x61 ≤ b ∧ b ≤ 0x66 then BitVec.ofNat 4 (b.toNat - 0x61 + 10)
  else 0

/-- R71: the first byte is the high nibble. -/
def hexpair (h l : Byte) : Byte := hexval h ++ hexval l

/-- R72: the bytes of offsets 3, 4, 5, 6, most significant pair first. -/
def magnitude (a b c d : Byte) : Mag := hexpair a b ++ hexpair c d

/-- R74 before narrowing: the temperature in tenths of a degree, rounded to nearest, exact on the integers. -/
def tenthsOf (m : Nat) : Int :=
  (((2 * Config.SCALE_NUM * m + Config.SCALE_DEN) / (2 * Config.SCALE_DEN) : Nat) : Int) - (Config.OFFSET : Int)

/-- R74: `tenthsOf` as the T10W-bit two's complement output; no range check (R78). -/
def temp10 (m : Mag) : T10 := BitVec.ofInt Config.T10W (tenthsOf m.toNat)

/-- The decimal digits of `n` in ASCII, with no leading zeros, `"0"` for 0; `k` bounds their number. -/
def decDigits : Nat → Nat → List Byte
  | 0, _ => []
  | k + 1, n =>
    if n < 10 then [Config.CH_0 + BitVec.ofNat 8 n]
    else decDigits k (n / 10) ++ [Config.CH_0 + BitVec.ofNat 8 (n % 10)]

/-- `dec(n)` of rule R75. Six digits hold every value below 2^18. -/
def dec (n : Nat) : List Byte := decDigits 6 n

/-- R75: the one-decimal text. Division and modulus are taken on the absolute value. A 19-bit operand outside -500..200653,
which `temp10` never gives, is rendered by the same formula.
DEDUCED, unsafe: R75 states the operand's range and one formula (log entry 8). -/
def render (t : T10) : List Byte :=
  (if t.toInt < 0 then [Config.CH_MINUS] else []) ++
    dec (t.toInt.natAbs / Config.DIVISOR) ++ [Config.CH_DOT] ++ dec (t.toInt.natAbs % Config.DIVISOR)

/-- The frame offset space (20_memory.md R20): offset `i` of `f`. `interpret` reads one only below the length (R24). -/
def frameAt (f : Frame) (i : Nat) : Option Byte := f[i]?

end Sys2Proof.Machine
end

