-- ==== Sys2Proof/Machine/Flags.lean ====
section
/-! DEFINITION. The block has no flags (10_state.md R13); what a step reports, it reports as outputs. Here: the diagnostic
codes (60_exceptions.md R86), the events of an evaluation in order (41_interpreter.md R60), and the output ports
(30_encoding.md R47). -/

namespace Sys2Proof.Machine

/-- The code of an assembler diagnostic on `asm_diag` (R86). -/
def AsmDiag.code : AsmDiag → BitVec 4
  | .protocolReset => 1
  | .unexpectedTerminatorByte => 2
  | .bufferOverrun => 3
  | .invalidState => 4

/-- The code of an interpreter diagnostic on `int_diag` (R86). -/
def IntDiag.code : IntDiag → BitVec 4
  | .emptyFrame => 5
  | .temperatureFrameTooShort => 6
  | .unrecognizedFrame => 7
  | .unrecognizedFrameType => 8

/-- The code reserved for the host's log, never on a port of the block (R86, R93). -/
def transportFailureCode : BitVec 4 := 9

/-- `asm_diag`: 0 for no diagnostic (R86). -/
def asmDiagPort : Option AsmDiag → BitVec 4
  | none => 0
  | some d => d.code

/-- `int_diag`: 0 for no diagnostic (R86). -/
def intDiagPort : Option IntDiag → BitVec 4
  | none => 0
  | some d => d.code

/-- The control state's one-bit encoding (10_state.md R10). -/
def ctlBit : Ctl → BitVec 1
  | .ws => 0
  | .we => 1

/-- The text of an echo. -/
def Echo.text : Echo → List Byte
  | .trace t => t
  | .app t => t

/-- `echo_kind`: 0 none, 1 trace, 2 application (R47). -/
def echoKind : Option Echo → BitVec 2
  | none => 0
  | some (.trace _) => 1
  | some (.app _) => 2

/-- One event of an evaluation of `interpret`. -/
inductive Event where
  | echo (e : Echo)
  | temperature (t : T10)
  | diagnostic (d : IntDiag)
  deriving DecidableEq, Repr

/-- The events of one evaluation in order: the echo, then the temperature or the diagnostic (R60). -/
def IntOut.events (o : IntOut) : List Event :=
  o.echo.toList.map .echo ++ o.temp.toList.map .temperature ++ o.diag.toList.map .diagnostic

/-- The text a temperature display event shows (41_interpreter.md R66, 42_thermometer.md R75). -/
def IntOut.tempText (o : IntOut) : Option (List Byte) := o.temp.map render

/-- The output ports (R47). -/
structure Ports where
  frameValid : Bool
  frameLen : Cursor
  frameData : Vector Byte Config.CAP
  asmDiag : BitVec 4
  echoKind : BitVec 2
  echoLen : Cursor
  echoData : Vector Byte (Config.CAP - 1)
  tempValid : Bool
  tempT10 : T10
  intDiag : BitVec 4
  txValid : Bool
  txData : Vector Byte 4
  deriving DecidableEq, Repr

/-- A data port of bytes: byte `i` of `bytes` where there is one, else the undriven value. -/
def driveBytes {n : Nat} (undriven : Vector Byte n) (bytes : List Byte) : Vector Byte n :=
  Vector.ofFn fun i => (bytes[i.val]?).getD undriven[i]

/-- The output ports in the step that left `s`. The bits that R47 leaves unspecified (bytes at or above a length, data whose
valid bit is 0; 93 U8) are taken from `undriven`, of which nothing is known: a claim holds for every value of it. -/
def State.ports (undriven : Ports) (s : State) : Ports where
  frameValid := s.asm.frame.isSome
  frameLen := (s.asm.frame.map fun f => BitVec.ofNat Config.CURW f.length).getD undriven.frameLen
  frameData := driveBytes undriven.frameData (s.asm.frame.getD [])
  asmDiag := asmDiagPort s.asm.diag
  echoKind := Machine.echoKind s.int.echo
  echoLen := (s.int.echo.map fun e => BitVec.ofNat Config.CURW e.text.length).getD undriven.echoLen
  echoData := driveBytes undriven.echoData ((s.int.echo.map Echo.text).getD [])
  tempValid := s.int.temp.isSome
  tempT10 := s.int.temp.getD undriven.tempT10
  intDiag := intDiagPort s.int.diag
  txValid := s.cmd.tx.isSome
  txData := driveBytes undriven.txData (s.cmd.tx.getD [])

/-- One clock's input ports as a stimulus (R47): the symbol counts where `in_valid` = 1, the selector where `cmd_valid` = 1. -/
def stimOfPorts (rst inValid : Bool) (inSym : Sym9) (cmdValid : Bool) (cmdSel : Sel2) : Stim :=
  .clock rst (if inValid then some inSym else none) (if cmdValid then some cmdSel else none)

end Sys2Proof.Machine
end

