-- ==== Sys2Proof/Machine/Ops.lean ====
section
/-! DEFINITION. The operations over the buffer and the registers, the assembler's one resync (`raise`), `interpret`,
the command unit, and what surrounds one step. Every meaning is written over these. -/

namespace Sys2Proof.Machine

/-! ### The buffer (20_memory.md R20 to R23) -/

/-- The byte of cell `a`, if it was ever written. -/
def Memory.read : Memory → Nat → Option Byte
  | [], _ => none
  | (k, v) :: m, a => if a = k then some v else Memory.read m a

/-- Cell `a` gets the byte `b`; the indices stay strictly rising. -/
def Memory.write : Memory → Nat → Byte → Memory
  | [], a, b => [(a, b)]
  | (k, v) :: m, a, b =>
    if a < k then (a, b) :: (k, v) :: m
    else if a = k then (a, b) :: m
    else (k, v) :: Memory.write m a b

/-- The indices are strictly rising, from `lo` on, and are cells of the buffer: below CAP. -/
def Memory.wfFrom : Nat → Memory → Bool
  | _, [] => true
  | lo, (k, _) :: m => lo ≤ k && k < Config.CAP && Memory.wfFrom (k + 1) m

/-- The canonical form. An unlisted cell has no value, so any byte may be listed. -/
def Memory.wf (m : Memory) : Bool := Memory.wfFrom 0 m

/-- The bytes of the cells 0 up to n, if all were written. -/
def Memory.copy (m : Memory) : Nat → Option (List Byte)
  | 0 => some []
  | n + 1 =>
    match Memory.copy m n, Memory.read m n with
    | some bs, some b => some (bs ++ [b])
    | _, _ => none

/-- `MemWrite(i, 1, b)` (R22): defined only for `i < CAP`. -/
def memWrite (s : State) (i : Nat) (b : Byte) : Except Fault State :=
  if i < Config.CAP then .ok { s with buf := s.buf.write i b } else .error (.outsideBuffer i)

/-- `MemRead(0, n)` (R23): the copy-out, defined only for `n ≤ CAP`; the frame does not alias the buffer. -/
def memRead (s : State) (n : Nat) : Except Fault Frame :=
  if n ≤ Config.CAP then
    match s.buf.copy n with
    | some f => .ok f
    | none => .error (.unwrittenCell n)
  else .error (.outsideBuffer n)

/-! ### The registers and the outputs -/

/-- `st <- v` (00_scope.md R7). -/
def State.setSt (s : State) (v : Ctl) : State := { s with st := v }

/-- `cur <- v` (00_scope.md R7). -/
def State.setCur (s : State) (v : Cursor) : State := { s with cur := v }

/-- What a step of `feed` puts out: its own result and, when it returned a frame, the interpreter's (41_interpreter.md R69). -/
def State.putFeed (s : State) (a : AsmOut) (o : IntOut) : State := { s with asm := a, int := o }

/-- What an evaluation of `interpret` alone puts out. It changes no other state (10_state.md R18). -/
def State.putInt (s : State) (o : IntOut) : State := { s with int := o }

/-- What a command request puts out. It changes no other state (20_memory.md R31). -/
def State.putCmd (s : State) (c : CmdOut) : State := { s with cmd := c }

/-- The value of a pure operation evaluated alone. -/
def State.putVal (s : State) (v : PureValue) : State := { s with val := some v }

/-! ### Taking a diagnostic (60_exceptions.md R88) -/

/-- `raise X`, the one entry all assembler diagnostics share: the code is put out, the payload discarded (`cur <- 0`; no cell is
cleared, 10_state.md R17), `st <- WS`, no frame, the symbol dropped. Nothing is saved, and there is no return (R91). -/
def State.raise (s : State) (x : AsmDiag) : State :=
  ((s.setCur 0).setSt .ws).putFeed ⟨none, some x⟩ IntOut.none

/-! ### `interpret` (41_interpreter.md) -/

/-- R61. -/
def outEmpty : IntOut := ⟨none, none, some .emptyFrame⟩

/-- R62. -/
def outTrace (text : List Byte) : IntOut := ⟨some (.trace text), none, none⟩

/-- R63 then R64. -/
def outAppShort (text : List Byte) : IntOut := ⟨some (.app text), none, some .temperatureFrameTooShort⟩

/-- R63 then R65. -/
def outAppOther (text : List Byte) : IntOut := ⟨some (.app text), none, some .unrecognizedFrame⟩

/-- R63 then R66. -/
def outAppTemp (text : List Byte) (t : T10) : IntOut := ⟨some (.app text), some t, none⟩

/-- R67. -/
def outUnknown : IntOut := ⟨none, none, some .unrecognizedFrameType⟩

/-- The decoder of a temperature frame of sufficient length (R66): offsets 3 to 6 and nothing else. -/
def frameT10 (f : Frame) : Option T10 :=
  match frameAt f 3, frameAt f 4, frameAt f 5, frameAt f 6 with
  | some a, some b, some c, some d => some (temp10 (magnitude a b c d))
  | _, _, _, _ => none

/-- The sub-type test on a frame by its offsets 1 and 2 (R63); an absent byte is a mismatch (R65 (a)). -/
def hasSubType (f : Frame) : Bool :=
  frameAt f 1 == some Config.SUB_TEMP0 && frameAt f 2 == some Config.SUB_TEMP1

/-- The common part of an application frame (R63). -/
def interpretApp (f : Frame) : IntOut :=
  if hasSubType f then
    match (if Config.TEMP_MIN_LEN ≤ f.length then frameT10 f else none) with
    | some t => outAppTemp (f.drop 1) t
    | none => outAppShort (f.drop 1)
  else outAppOther (f.drop 1)

/-- `interpret(f)` in the order of tests of 60_exceptions.md R90. -/
def interpret (f : Frame) : IntOut :=
  match frameAt f 0 with
  | none => outEmpty
  | some tag =>
    if tag = Config.TAG_TRACE then outTrace (f.drop 1)
    else if tag = Config.TAG_APP then interpretApp f
    else outUnknown

/-! ### The command unit (43_commands.md) -/

/-- The second byte of a command frame (R85). -/
def ledCode : Selector → Byte
  | .red => Config.SEL_RED
  | .green => Config.SEL_GREEN
  | .blue => Config.SEL_BLUE
  | .off => Config.SEL_OFF

/-- R85. -/
def buildLedCommand (sel : Selector) : Frame := [Config.TAG_LED, ledCode sel]

/-- R84. -/
def serialize (f : Frame) : List Byte := f ++ [Config.CR, Config.LF]

/-- A command request (30_encoding.md R46 (c)): the frame and its wire bytes, in the step of the request (92 D23). -/
def State.send (s : State) (sel : Selector) : State :=
  s.putCmd ⟨some (buildLedCommand sel), some (serialize (buildLedCommand sel))⟩

/-! ### One step -/

/-- A meaning runs where its row of the table is selected, and is refused by name where it is not. -/
def guardRow (selected : Bool) (mnemonic : String) (r : Host.Outcome State Fault Refusal) : Host.Outcome State Fault Refusal :=
  if selected then r else .refused (.rowNotSelected mnemonic)

/-- What is presented now: the head of the list; with none, a clock with no input active, which is a stutter (92 D1). -/
def State.stim (s : State) : Stim := s.ins.headD (.clock false none none)

/-- The beginning of a step: the stimulus is taken, and the outputs of the step before are gone (60_exceptions.md R87,
70_reset_and_hazards.md R104). -/
def State.begin (s : State) : State :=
  { s with asm := AsmOut.none, int := IntOut.none, cmd := CmdOut.none, val := none, ins := s.ins.tail }

/-- Hardware reset (70_reset_and_hazards.md R100): `st` and `cur`; the buffer is left as it is, no diagnostic, no output. -/
def State.hardReset (s : State) : State :=
  { s with st := .ws, cur := 0, asm := AsmOut.none, int := IntOut.none, cmd := CmdOut.none, val := none }

/-- The operations of one stimulus, in the order the model runs them. In a clock with `rst` every input is ignored (R100).
The symbol and the command act on disjoint fields, so their order does not matter (20_memory.md R31). -/
def stimRequests : Stim → List Request
  | .clock true _ _ => []
  | .clock false sym cmd => sym.toList.map .symbol ++ cmd.toList.map .select
  | .alone r => [.alone r]

/-- The stimulus asserts hardware reset. -/
def stimIsReset : Stim → Bool
  | .clock rst _ _ => rst
  | .alone _ => false

/-- The stimulus that presents one request and nothing else. -/
def stimOf : Request → Stim
  | .symbol sym => .clock false (some sym) none
  | .select sel => .clock false none (some sel)
  | .alone r => .alone r

/-- The assembler state in which the table selects the row of a bare table word (`tableCtl`, log entry 7): nothing is changed for
a marker; a byte needs the row's `st`, and in `WS` a cursor below CAP. -/
def State.selectRow (s : State) : Request → State
  | .symbol sym =>
    match symbolOf sym with
    | .reset => s
    | .byte b =>
      if b = Config.LF then s.setSt .we
      else if b = Config.CR ∨ s.cur.toNat < Config.CAP then s.setSt .ws
      else (s.setSt .ws).setCur 0
  | .select _ => s
  | .alone _ => s

/-- `s` with the instruction of a bare table word presented next, ahead of what is presented already. -/
def State.present (s : State) (nbits w : Nat) : State :=
  match tableRequest nbits w with
  | .error _ => s
  | .ok r => { s.selectRow r with ins := stimOf r :: s.ins }

end Sys2Proof.Machine
end

