-- ==== Sys2Proof/Machine/Assembler.lean ====
section
/-! DEFINITION. The meanings of the FEED rows: the cases of `feed` (40_assembler_feed.md R50 to R56). -/

namespace Sys2Proof.Machine

/-- FEED.RESET (R50): in any state, `raise ProtocolReset`. -/
def execFeedReset (s : State) : Host.Outcome State Fault Refusal :=
  .next (s.raise .protocolReset)

/-- FEED.WS.CR (R51): `st <- WE`; cursor and buffer unchanged, nothing put out. Tested before the capacity (R51 (b)). -/
def execFeedWsCr (s : State) : Host.Outcome State Fault Refusal :=
  guardRow (s.st == .ws) "FEED.WS.CR" (.next ((s.setSt .we).putFeed AsmOut.none IntOut.none))

/-- FEED.WS.DATA (R52): `MemWrite(cur, 1, b)`, then `cur <- cur + 1`. -/
def execFeedWsData (b : Byte) (s : State) : Host.Outcome State Fault Refusal :=
  guardRow (s.st == .ws && b != Config.CR && s.cur.toNat < Config.CAP) "FEED.WS.DATA"
    (match memWrite s s.cur.toNat b with
     | .ok s' => .next ((s'.setCur (s.cur + 1)).putFeed AsmOut.none IntOut.none)
     | .error e => .fault e)

/-- FEED.WS.OVERRUN (R53): `raise BufferOverrun`; the byte is stored nowhere (92 D7). -/
def execFeedWsOverrun (b : Byte) (s : State) : Host.Outcome State Fault Refusal :=
  guardRow (s.st == .ws && b != Config.CR && s.cur.toNat == Config.CAP) "FEED.WS.OVERRUN"
    (.next (s.raise .bufferOverrun))

/-- FEED.WE.LF (R54): the copy-out `MemRead(0, cur)`, before `cur <- 0` and `st <- WS` (20_memory.md R27); the frame is
interpreted in the same step (41_interpreter.md R69). -/
def execFeedWeLf (s : State) : Host.Outcome State Fault Refusal :=
  guardRow (s.st == .we) "FEED.WE.LF"
    (match memRead s s.cur.toNat with
     | .ok f => .next (((s.setCur 0).setSt .ws).putFeed ⟨some f, none⟩ (interpret f))
     | .error e => .fault e)

/-- FEED.WE.OTHER (R55): `raise UnexpectedTerminatorByte`; the byte is neither stored nor examined again. -/
def execFeedWeOther (b : Byte) (s : State) : Host.Outcome State Fault Refusal :=
  guardRow (s.st == .we && b != Config.LF) "FEED.WE.OTHER" (.next (s.raise .unexpectedTerminatorByte))

/-- FEED.BADSTATE (R56): `raise InvalidState`. Its column `state`, neither `WS` nor `WE`, is met by no value of the one-bit `st`, so
the decoder never selects it; the meaning is R56's pseudocode with no test of `st`.
DESIGN CHOICE, unsafe: exec on this constructor gives an effect in states where R56 says the case cannot arise (log entry 6). -/
def execFeedBadState (_b : Byte) (s : State) : Host.Outcome State Fault Refusal :=
  .next (s.raise .invalidState)

end Sys2Proof.Machine
end

