-- ==== Sys2Proof/Machine/Commands.lean ====
section
/-! DEFINITION. The meanings of the LED rows and of SERIALIZE (43_commands.md R80 to R85). The assembler is not touched
(20_memory.md R31). -/

namespace Sys2Proof.Machine

/-- LED.RED (R80). -/
def execLedRed (s : State) : Host.Outcome State Fault Refusal := .next (s.send .red)

/-- LED.GREEN (R81). -/
def execLedGreen (s : State) : Host.Outcome State Fault Refusal := .next (s.send .green)

/-- LED.BLUE (R82). -/
def execLedBlue (s : State) : Host.Outcome State Fault Refusal := .next (s.send .blue)

/-- LED.OFF (R83). -/
def execLedOff (s : State) : Host.Outcome State Fault Refusal := .next (s.send .off)

/-- SERIALIZE (R84) alone, on any frame: the wire bytes as a value. -/
def execSerialize (f : Frame) (s : State) : Host.Outcome State Fault Refusal :=
  .next (s.putVal (.wire (serialize f)))

end Sys2Proof.Machine
end

