-- ==== Sys2Proof/Machine/Interpreter.lean ====
section
/-! DEFINITION. The meanings of the INT rows: one evaluation of `interpret` on a frame of the row's class
(41_interpreter.md R61 to R67). No state of the block changes (60_exceptions.md R89). -/

namespace Sys2Proof.Machine

/-- INT.EMPTY (R61). -/
def execIntEmpty (s : State) : Host.Outcome State Fault Refusal :=
  .next (s.putInt outEmpty)

/-- INT.TRACE (R62). -/
def execIntTrace (text : List Byte) (s : State) : Host.Outcome State Fault Refusal :=
  .next (s.putInt (outTrace text))

/-- INT.APP.TEMP (R63, R66): the echo of the whole text after the tag, and the temperature of the four digit bytes. -/
def execIntAppTemp (msHi msLo lsHi lsLo : Byte) (rest : List Byte) (s : State) : Host.Outcome State Fault Refusal :=
  .next (s.putInt (outAppTemp ([Config.SUB_TEMP0, Config.SUB_TEMP1, msHi, msLo, lsHi, lsLo] ++ rest)
    (temp10 (magnitude msHi msLo lsHi lsLo))))

/-- INT.APP.SHORT (R63, R64): no partial decode of the digits present. -/
def execIntAppShort (digits : List Byte) (s : State) : Host.Outcome State Fault Refusal :=
  guardRow (3 + digits.length < Config.TEMP_MIN_LEN) "INT.APP.SHORT"
    (.next (s.putInt (outAppShort ([Config.SUB_TEMP0, Config.SUB_TEMP1] ++ digits))))

/-- INT.APP.OTHER (R63, R65). -/
def execIntAppOther (text : List Byte) (s : State) : Host.Outcome State Fault Refusal :=
  guardRow (!startsWithSubType text) "INT.APP.OTHER" (.next (s.putInt (outAppOther text)))

/-- INT.UNKNOWN (R67): the diagnostic only, no echo (92 D21). -/
def execIntUnknown (tag : Byte) (_rest : List Byte) (s : State) : Host.Outcome State Fault Refusal :=
  guardRow (tag != Config.TAG_TRACE && tag != Config.TAG_APP) "INT.UNKNOWN" (.next (s.putInt outUnknown))

end Sys2Proof.Machine
end

