-- ==== Sys2Proof/Machine/Thermometer.lean ====
section
/-! DEFINITION. The meanings of the HEXVAL rows and of the pure functions (42_thermometer.md R70 to R75), each evaluated
alone: the value is put out, no state of the block changes (10_state.md R18). -/

namespace Sys2Proof.Machine

/-- HEXVAL.DEC.LO (R70): 0..7. -/
def execHexvalDecLo (d : BitVec 3) (s : State) : Host.Outcome State Fault Refusal :=
  .next (s.putVal (.nibble (d.setWidth 4)))

/-- HEXVAL.DEC.HI (R70): 8 + d. -/
def execHexvalDecHi (d : BitVec 1) (s : State) : Host.Outcome State Fault Refusal :=
  .next (s.putVal (.nibble (8 + d.setWidth 4)))

/-- HEXVAL.UPPER (R70): 9 + d, for d from 1 to 6. -/
def execHexvalUpper (d : BitVec 3) (s : State) : Host.Outcome State Fault Refusal :=
  guardRow (1 ≤ d && d ≤ 6) "HEXVAL.UPPER" (.next (s.putVal (.nibble (9 + d.setWidth 4))))

/-- HEXVAL.LOWER (R70): 9 + d, for d from 1 to 6. -/
def execHexvalLower (d : BitVec 3) (s : State) : Host.Outcome State Fault Refusal :=
  guardRow (1 ≤ d && d ≤ 6) "HEXVAL.LOWER" (.next (s.putVal (.nibble (9 + d.setWidth 4))))

/-- HEXVAL.OTHER (R70): 0, with no diagnostic. -/
def execHexvalOther (b : Byte) (s : State) : Host.Outcome State Fault Refusal :=
  guardRow (!isHexDigit b) "HEXVAL.OTHER" (.next (s.putVal (.nibble 0)))

/-- HEXPAIR (R71). -/
def execHexpair (h l : Byte) (s : State) : Host.Outcome State Fault Refusal :=
  .next (s.putVal (.byte (hexpair h l)))

/-- MAGNITUDE (R72). -/
def execMagnitude (a b c d : Byte) (s : State) : Host.Outcome State Fault Refusal :=
  .next (s.putVal (.magnitude (magnitude a b c d)))

/-- TEMP10 (R74). -/
def execTemp10 (m : Mag) (s : State) : Host.Outcome State Fault Refusal :=
  .next (s.putVal (.tenths (temp10 m)))

/-- RENDER (R75). -/
def execRender (t : T10) (s : State) : Host.Outcome State Fault Refusal :=
  .next (s.putVal (.text (render t)))

end Sys2Proof.Machine
end

