-- ==== Sys2Proof/Machine/Dispatch.lean ====
section
/-! DEFINITION. Each constructor's meaning. -/

namespace Sys2Proof.Machine

def exec (i : Instr) (s : State) : Host.Outcome State Fault Refusal :=
  match i with
  | .feedReset => Sys2Proof.Machine.execFeedReset s
  | .feedWsCr => Sys2Proof.Machine.execFeedWsCr s
  | .feedWsData b => Sys2Proof.Machine.execFeedWsData b s
  | .feedWsOverrun b => Sys2Proof.Machine.execFeedWsOverrun b s
  | .feedWeLf => Sys2Proof.Machine.execFeedWeLf s
  | .feedWeOther b => Sys2Proof.Machine.execFeedWeOther b s
  | .feedBadState b => Sys2Proof.Machine.execFeedBadState b s
  | .intEmpty => Sys2Proof.Machine.execIntEmpty s
  | .intTrace text => Sys2Proof.Machine.execIntTrace text s
  | .intAppTemp msHi msLo lsHi lsLo rest => Sys2Proof.Machine.execIntAppTemp msHi msLo lsHi lsLo rest s
  | .intAppShort digits => Sys2Proof.Machine.execIntAppShort digits s
  | .intAppOther text => Sys2Proof.Machine.execIntAppOther text s
  | .intUnknown tag rest => Sys2Proof.Machine.execIntUnknown tag rest s
  | .hexvalDecLo d => Sys2Proof.Machine.execHexvalDecLo d s
  | .hexvalDecHi d => Sys2Proof.Machine.execHexvalDecHi d s
  | .hexvalUpper d => Sys2Proof.Machine.execHexvalUpper d s
  | .hexvalLower d => Sys2Proof.Machine.execHexvalLower d s
  | .hexvalOther b => Sys2Proof.Machine.execHexvalOther b s
  | .hexpair h l => Sys2Proof.Machine.execHexpair h l s
  | .magnitude a b c d => Sys2Proof.Machine.execMagnitude a b c d s
  | .temp10 m => Sys2Proof.Machine.execTemp10 m s
  | .render t => Sys2Proof.Machine.execRender t s
  | .ledRed => Sys2Proof.Machine.execLedRed s
  | .ledGreen => Sys2Proof.Machine.execLedGreen s
  | .ledBlue => Sys2Proof.Machine.execLedBlue s
  | .ledOff => Sys2Proof.Machine.execLedOff s
  | .serialize f => Sys2Proof.Machine.execSerialize f s

end Sys2Proof.Machine
end

