-- ==== Sys2Proof/Machine/Run.lean ====
section
/-! DEFINITION. Running what one stimulus presents. -/

namespace Sys2Proof.Machine

/-- The row a request selects in the present state, run. -/
def runRequest (r : Request) (s : State) : Host.Outcome State Fault Refusal :=
  match decode s.st s.cur r with
  | .ok i => exec i s
  | .error e => .refused (.undecodable e)

/-- Requests one after the other, up to the first stop. -/
def runRequests : List Request → State → Host.Outcome State Fault Refusal
  | [], s => .next s
  | r :: rs, s =>
    match runRequest r s with
    | .next s' => runRequests rs s'
    | .fault e => .fault e
    | .refused e => .refused e

/-- One step on a stimulus: hardware reset before all else (70_reset_and_hazards.md R100), else its requests. -/
def runStim (x : Stim) (s : State) : Host.Outcome State Fault Refusal :=
  if stimIsReset x then .next s.hardReset else runRequests (stimRequests x) s

end Sys2Proof.Machine
end

