-- ==== Sys2Proof/Machine/Step.lean ====
section
/-! DEFINITION. One step of the block: one stimulus (00_scope.md R5; 92 D1). -/

namespace Sys2Proof.Machine

/-- One step. The block fetches nothing (20_memory.md R32): what runs is what the outside presents now. -/
def step (s : State) : Host.Outcome State Fault Refusal := runStim s.stim s.begin

/-- `s` with the instruction of a table word presented next. -/
def State.withFetchWord (s : State) (nbits w : Nat) : State := s.present nbits w

end Sys2Proof.Machine
end

