-- ==== Sys2Proof/Machine/Abstract.lean ====
section
/-! DEFINITION. The abstract state (st, acc) of 10_state.md R19 and the assembler's transition function on it, as
40_assembler_feed.md R57 writes it. It is written on its own, not over the register operations, so that the two can be
compared. -/

namespace Sys2Proof.Machine

/-- The abstract state: `acc` is the accumulated payload (R19), here of any length (log entry 17). -/
structure Abs where
  st : Ctl
  acc : List Byte
  deriving DecidableEq, Repr

/-- The initial abstract state (R16, R19). -/
def Abs.init : Abs := ⟨.ws, []⟩

/-- The accumulated payload `buf[0..cur)` (10_state.md R12), if all its cells were written. -/
def State.payload (s : State) : Option (List Byte) := s.buf.copy s.cur.toNat

/-- The abstract state of a state. -/
def State.abs (s : State) : Option Abs := s.payload.map fun acc => ⟨s.st, acc⟩

/-- The six equations of R57. They speak of `|acc| < CAP` and `|acc| = CAP` only; R19 limits `acc` to CAP bytes, and `Abs` does not.
DESIGN CHOICE, unsafe: an `acc` of more than CAP bytes, which no state has, is treated as a full one (log entry 17). -/
def Abs.feed (a : Abs) : Symbol → Abs × AsmOut
  | .reset => (⟨.ws, []⟩, ⟨none, some .protocolReset⟩)
  | .byte b =>
    match a.st with
    | .ws =>
      if b = Config.CR then (⟨.we, a.acc⟩, ⟨none, none⟩)
      else if a.acc.length < Config.CAP then (⟨.ws, a.acc ++ [b]⟩, ⟨none, none⟩)
      else (⟨.ws, []⟩, ⟨none, some .bufferOverrun⟩)
    | .we =>
      if b = Config.LF then (⟨.ws, []⟩, ⟨some a.acc, none⟩)
      else (⟨.ws, []⟩, ⟨none, some .unexpectedTerminatorByte⟩)

/-- Feeding a chunk: one step a symbol, the outputs in order (30_encoding.md R46 (a)). -/
def Abs.feedAll (a : Abs) : List Symbol → Abs × List AsmOut
  | [] => (a, [])
  | x :: xs => ((Abs.feedAll (a.feed x).1 xs).1, (a.feed x).2 :: (Abs.feedAll (a.feed x).1 xs).2)

/-- The interpreter's outputs in a step of the assembler: of the frame, if one is emitted, else none (41_interpreter.md R69). -/
def interpretOut (o : AsmOut) : IntOut :=
  match o.frame with
  | some f => interpret f
  | none => IntOut.none

end Sys2Proof.Machine
end

