-- ==== Sys2Proof/Safety.lean ====
section
/-! DEFINITION. The terms in which claims speak: the invariants of 10_state.md R14, what is observable (R17), the exact
temperature (42_thermometer.md R73), and test-bench functions the hardware does not have. -/

namespace Sys2Proof.Machine

/-- The state invariants of R14: (I-a); the buffer in its canonical form, every cell below CAP; (I-c), with every cell below the
cursor written (R17); and the consequence for an emitted frame. (I-b) holds by the type of `st`. -/
structure State.Inv (s : State) : Prop where
  cur_le : s.cur.toNat ≤ Config.CAP
  buf_wf : s.buf.wf = true
  payload : ∃ acc, s.payload = some acc ∧ Config.CR ∉ acc
  frame : ∀ f, s.asm.frame = some f → f.length ≤ Config.CAP ∧ Config.CR ∉ f

/-- The outputs of one step as R58, R60, R69 and 60_exceptions.md R87 limit them, and the temperature's range (R74). -/
structure State.OutputsLegal (s : State) : Prop where
  asmOne : s.asm.frame = none ∨ s.asm.diag = none
  intOne : s.int.temp = none ∨ s.int.diag = none
  units : s.asm.diag = none ∨ s.int = IntOut.none
  tempEcho : s.int.temp ≠ none → ∃ text, s.int.echo = some (.app text)
  tempRange : ∀ t, s.int.temp = some t → -500 ≤ t.toInt ∧ t.toInt ≤ 200653
  txFrame : s.cmd.tx = s.cmd.frame.map serialize

/-- Two states that differ at most in cells the block can never read: same control state, cursor, accumulated payload, outputs
and stimuli (R17). -/
structure State.SameVisible (s t : State) : Prop where
  st : s.st = t.st
  cur : s.cur = t.cur
  payload : s.payload = t.payload
  asm : s.asm = t.asm
  int : s.int = t.int
  cmd : s.cmd = t.cmd
  val : s.val = t.val
  ins : s.ins = t.ins

/-- The same outcome as far as it can be seen. -/
def sameOutcome : Host.Outcome State Fault Refusal → Host.Outcome State Fault Refusal → Prop
  | .next s, .next t => s.SameVisible t
  | .fault e, .fault e' => e = e'
  | .refused r, .refused r' => r = r'
  | _, _ => False

/-- What a row acts on: the assembler, the interpreter's outputs, the command unit's outputs, or the value of a pure function. -/
inductive Part where
  | asm
  | int
  | cmd
  | fn
  deriving DecidableEq, Repr

/-- The part a row acts on. -/
def partOf : Instr → Part
  | .feedReset | .feedWsCr | .feedWsData _ | .feedWsOverrun _ | .feedWeLf | .feedWeOther _ | .feedBadState _ => .asm
  | .intEmpty | .intTrace _ | .intAppTemp _ _ _ _ _ | .intAppShort _ | .intAppOther _ | .intUnknown _ _ => .int
  | .hexvalDecLo _ | .hexvalDecHi _ | .hexvalUpper _ | .hexvalLower _ | .hexvalOther _ => .fn
  | .hexpair _ _ | .magnitude _ _ _ _ | .temp10 _ | .render _ | .serialize _ => .fn
  | .ledRed | .ledGreen | .ledBlue | .ledOff => .cmd

/-- The exact temperature in degrees Celsius (R73), a rational number. -/
def temperature (m : Nat) : ℚ :=
  ((m : ℚ) * (Config.SCALE_NUM : ℚ) / (Config.SCALE_DEN : ℚ) - (Config.OFFSET : ℚ)) / (Config.DIVISOR : ℚ)

/-- `dec(n)` of R75 by the library's decimal digits: a second way to write a number, to hold the model's against. -/
def decimalText (n : Nat) : List Byte :=
  if n = 0 then [0x30] else (Nat.digits 10 n).reverse.map fun d => BitVec.ofNat 8 (0x30 + d)

/-- The upper-case hex character of a nibble (R79: a test-bench function). -/
def upperHexDigit (v : Nibble) : Byte :=
  if v.toNat < 10 then BitVec.ofNat 8 (0x30 + v.toNat) else BitVec.ofNat 8 (0x41 + (v.toNat - 10))

/-- A letter `'a'..'f'` as its upper-case form; every other byte as it is (R79). -/
def upperCase (b : Byte) : Byte := if 0x61 ≤ b ∧ b ≤ 0x66 then b - 0x20 else b

/-- The symbols of a byte sequence. -/
def symbolsOf (bs : List Byte) : List Symbol := bs.map .byte

/-- One clock a byte, the byte on the symbol port (30_encoding.md R34). -/
def clocksOf (bs : List Byte) : List Stim := bs.map fun b => .clock false (some (Symbol.bits (.byte b))) none

/-- One clock a symbol, the 9-bit value on the symbol port. -/
def symbolClocks (syms : List Sym9) : List Stim := syms.map fun sym => .clock false (some sym) none

/-- Chunks of symbols, each after a number of clocks that present nothing (40_assembler_feed.md R59 (c), 92 D1). -/
def chunkClocks (chunks : List (Nat × List Sym9)) : List Stim :=
  chunks.flatMap fun c => List.replicate c.1 (.clock false none none) ++ symbolClocks c.2

/-- `k` steps: the state they lead to and, step by step, what the assembler and the interpreter put out; none if a step stops. -/
def runOuts : Nat → State → Option (State × List (AsmOut × IntOut))
  | 0, s => some (s, [])
  | k + 1, s =>
    match step s with
    | .next t => (runOuts k t).map fun r => (r.1, (t.asm, t.int) :: r.2)
    | .fault _ => none
    | .refused _ => none

/-- The outputs of the steps that put something out, in order. -/
def heard (outs : List (AsmOut × IntOut)) : List (AsmOut × IntOut) :=
  outs.filter fun o => decide (o ≠ (AsmOut.none, IntOut.none))

end Sys2Proof.Machine
end

