-- ==== Sys2Proof/Certificates/Slice0/Obligations.lean ====
section
/-! DEFINITION. The statements for the provers. Each docstring names the rule of spec/ that it formalises. -/

open Sys2Proof Sys2Proof.Machine

/-! ### Reset, the step, and what it keeps -/

/-- R16, R101: after hardware reset `WS`, cursor 0, the empty accumulated payload, every output inactive. The fields `val` and
`ins`, and the empty list of cells, are the model's choice (log entries 1, 3, 4). -/
def Obligations.ResetIsEmptyAssembler : Prop :=
  State.reset.st = .ws ∧ State.reset.cur = 0 ∧ State.reset.abs = some Abs.init ∧
  State.reset.asm = ⟨none, none⟩ ∧ State.reset.int = ⟨none, none, none⟩ ∧ State.reset.cmd = ⟨none, none⟩ ∧
  State.reset.val = none ∧ State.reset.ins = [] ∧ ∀ a, State.reset.buf.read a = none

/-- R14: the invariants hold after hardware reset, and so do the limits on outputs. -/
def Obligations.ResetMeetsInvariants : Prop := State.reset.Inv ∧ State.reset.OutputsLegal

/-- R14: every step keeps (I-a), (I-c) with every cell below the cursor written, the canonical form of the buffer, and the bound
on an emitted frame. -/
def Obligations.StepKeepsInvariants : Prop := ∀ s t : State, s.Inv → step s = .next t → t.Inv

/-- R91: the block never halts, hangs or refuses a symbol: from every state that meets the invariants, whatever is presented, the
step answers a next state. -/
def Obligations.StepNeverStops : Prop := ∀ s : State, s.Inv → ∃ t, step s = .next t

/-- R58, R60, R69, R87: what one step puts out. At most one of frame and assembler diagnostic, at most one of temperature and
interpreter diagnostic, never an assembler diagnostic beside interpreter outputs, a temperature only beside an application echo and
in range, and the transmitted bytes are the serialised command frame. From every state. -/
def Obligations.StepOutputsAreLegal : Prop := ∀ s t : State, step s = .next t → t.OutputsLegal

/-- R100: a step with `rst` = 1. -/
def Obligations.HardwareResetStep : Prop :=
  ∀ (s : State) (sym : Option Sym9) (sel : Option Sel2) (rest : List Stim), s.ins = .clock true sym sel :: rest →
    step s = .next { st := .ws, cur := 0, buf := s.buf, asm := ⟨none, none⟩, int := ⟨none, none, none⟩,
                     cmd := ⟨none, none⟩, val := none, ins := rest }

/-- R5, R93, D1: a clock that presents nothing (a failed read is one) changes no state and puts nothing out. -/
def Obligations.IdleClockStutters : Prop :=
  ∀ s : State, s.ins = [] ∨ (∃ rest, s.ins = .clock false none none :: rest) →
    step s = .next { s with asm := ⟨none, none⟩, int := ⟨none, none, none⟩, cmd := ⟨none, none⟩, val := none,
                            ins := s.ins.tail }

/-- R5, R42, R46 (c), D23: a step on a stimulus that presents one request runs the instruction the request decodes to, in the state whose
outputs are cleared and whose stimulus is taken. That a pure operation is a step of its own is the model's choice (log entries 3, 14). -/
def Obligations.StepRunsDecodedInstruction : Prop :=
  ∀ (s : State) (r : Request) (i : Instr) (rest : List Stim), s.ins = stimOf r :: rest → decode s.st s.cur r = .ok i →
    step s = exec i { s with asm := ⟨none, none⟩, int := ⟨none, none, none⟩, cmd := ⟨none, none⟩, val := none, ins := rest }

/-- R31: a clock with a symbol and a command runs both instructions: the command's after the symbol's has answered. -/
def Obligations.StepRunsSymbolAndCommand : Prop :=
  ∀ (s t : State) (sym : Sym9) (sel : Sel2) (i : Instr) (rest : List Stim),
    s.ins = .clock false (some sym) (some sel) :: rest → decodeSymbol s.st s.cur sym = .ok i →
    exec i { s with asm := ⟨none, none⟩, int := ⟨none, none, none⟩, cmd := ⟨none, none⟩, val := none, ins := rest } = .next t →
    step s = exec (decodeSelect sel) t

/-- R31: the symbol and the command of one clock can be served in either order, with the same outcome. -/
def Obligations.SymbolAndCommandCommute : Prop :=
  ∀ (s : State) (sym : Sym9) (sel : Sel2),
    runRequests [.symbol sym, .select sel] s = runRequests [.select sel, .symbol sym] s

/-- R57, R19, R69: on every symbol the register machine does what R57's function does on (st, acc), and interprets exactly the frame
it emits; a command in the same clock does not matter. -/
def Obligations.StepRefinesAbstractFeed : Prop :=
  ∀ (s : State) (a : Abs) (sym : Sym9) (sel : Option Sel2) (rest : List Stim),
    s.Inv → s.abs = some a → s.ins = .clock false (some sym) sel :: rest →
    ∃ t, step s = .next t ∧ t.abs = some (a.feed (symbolOf sym)).1 ∧ t.asm = (a.feed (symbolOf sym)).2 ∧
      t.int = interpretOut (a.feed (symbolOf sym)).2 ∧ t.ins = rest

/-- R17: cells at indices `>= cur` are unobservable: states that differ in them alone step to the same outcome. -/
def Obligations.StaleCellsAreUnobservable : Prop :=
  ∀ s t : State, s.SameVisible t → sameOutcome (step s) (step t)

/-- R18: a pure operation evaluated alone answers a next state, changes no state of the assembler, and its results depend on its
argument alone. -/
def Obligations.PureOperationsHoldNoState : Prop :=
  ∀ (s s' : State) (r : PureRequest) (rest rest' : List Stim), s.ins = .alone r :: rest → s'.ins = .alone r :: rest' →
    ∃ t t', step s = .next t ∧ step s' = .next t' ∧ t.st = s.st ∧ t.cur = s.cur ∧ t.buf = s.buf ∧
      t.asm = ⟨none, none⟩ ∧ t.cmd = ⟨none, none⟩ ∧ t.int = t'.int ∧ t.val = t'.val

/-- R11: a step leaves the cursor, sets it to 0, or counts it up by one below CAP; it never wraps. -/
def Obligations.CursorNeverWraps : Prop :=
  ∀ s t : State, step s = .next t →
    t.cur = s.cur ∨ t.cur = 0 ∨ (s.cur.toNat < Config.CAP ∧ t.cur.toNat = s.cur.toNat + 1)

/-- R57, R14 (I-d): `WE` is entered only by a carriage return in `WS`, a step with a symbol leaves it, and as long as it lasts the
cursor and the cells are those of the carriage return's arrival. -/
def Obligations.WaitingForEndLastsOneSymbol : Prop :=
  ∀ s t : State, step s = .next t → t.st = .we →
    ((s.st = .we ∧ ∀ rst sym sel, s.stim = .clock rst sym sel → sym = none) ∨
     (s.st = .ws ∧ ∃ sym sel, s.stim = .clock false (some sym) sel ∧ symbolOf sym = .byte Config.CR)) ∧
    t.cur = s.cur ∧ t.buf = s.buf

/-! ### Decoding and encoding -/

/-- R34: the marker bit alone makes the marker, whatever the byte field holds; without it the field is the byte. -/
def Obligations.SymbolFormat : Prop :=
  ∀ b : Byte, symbolOf (1#1 ++ b : BitVec 9) = .reset ∧ symbolOf (0#1 ++ b : BitVec 9) = .byte b

/-- R36: in every state with a legal cursor each symbol selects exactly one row of the table, and that row is the decoder's. -/
def Obligations.SymbolTableSelectsOneRow : Prop :=
  ∀ (st : Ctl) (cur : Cursor) (sym : Sym9), cur.toNat ≤ Config.CAP →
    ∃ i, decodeSymbol st cur sym = .ok i ∧
      (symTable.filter fun row => row.selects st cur sym).map SymRow.mnemonic = [i.mnemonic]

/-- R38: the six classes of frames by their conditions; each frame is in the class the decoder names, and no byte of it is lost. -/
def Obligations.FrameClassesPartition : Prop :=
  ∀ f : Frame,
    (decodeFrame f).wellFormed = true ∧ encode (decodeFrame f) = .alone (.frame f) ∧
    (decodeFrame f).mnemonic =
      (if f.length = 0 then "INT.EMPTY"
       else if f[0]? = some 0x54 then "INT.TRACE"
       else if f[0]? = some 0x41 then
         if 7 ≤ f.length ∧ f[1]? = some 0x35 ∧ f[2]? = some 0x34 then "INT.APP.TEMP"
         else if 3 ≤ f.length ∧ f.length ≤ 6 ∧ f[1]? = some 0x35 ∧ f[2]? = some 0x34 then "INT.APP.SHORT"
         else "INT.APP.OTHER"
       else "INT.UNKNOWN")

/-- R42: the four selectors and the four command frames; no other 16 bits are one. -/
def Obligations.CommandFormats : Prop :=
  decodeSelect 0 = .ledRed ∧ decodeSelect 1 = .ledGreen ∧ decodeSelect 2 = .ledBlue ∧ decodeSelect 3 = .ledOff ∧
  decodeCommandFrame 0x4C52 = .ok .ledRed ∧ decodeCommandFrame 0x4C47 = .ok .ledGreen ∧
  decodeCommandFrame 0x4C42 = .ok .ledBlue ∧ decodeCommandFrame 0x4C30 = .ok .ledOff ∧
  ∀ w : BitVec 16, w ≠ 0x4C52 → w ≠ 0x4C47 → w ≠ 0x4C42 → w ≠ 0x4C30 → decodeCommandFrame w = .error .notACommandFrame

/-- The decoder gives back every well-formed instruction from its encoding, with every operand, in every state in which its row is
selected. -/
def Obligations.DecodeOfEncode : Prop :=
  ∀ (i : Instr) (st : Ctl) (cur : Cursor), i.wellFormed = true → i.selectedIn st cur = true → decode st cur (encode i) = .ok i

/-- What the decoder gives is well formed, is selected in the state it was read in, and encodes to what was read, but for the
ignored byte field of a marker. -/
def Obligations.EncodeOfDecode : Prop :=
  ∀ (st : Ctl) (cur : Cursor) (r : Request) (i : Instr), decode st cur r = .ok i →
    i.wellFormed = true ∧ i.selectedIn st cur = true ∧
      (encode i = r ∨ ∃ b : Byte, r = .symbol (1#1 ++ b : BitVec 9) ∧ i = .feedReset)

/-- Words of 95_test_vectors.md written out from the encodings: rows A1, A8, A11, A6, A14, A18, I2, I20, a hex pair, the red selector. -/
def Obligations.SampleWordsDecode : Prop :=
  decode .ws 0 (.symbol 0x041) = .ok (.feedWsData 0x41) ∧ decode .ws 40 (.symbol 0x00D) = .ok .feedWsCr ∧
  decode .we 3 (.symbol 0x00A) = .ok .feedWeLf ∧ decode .ws 40 (.symbol 0x062) = .ok (.feedWsOverrun 0x62) ∧
  decode .we 3 (.symbol 0x078) = .ok (.feedWeOther 0x78) ∧ decode .ws 3 (.symbol 0x1FF) = .ok .feedReset ∧
  decode .ws 0 (.alone (.frame [0x54])) = .ok (.intTrace []) ∧
  decode .ws 0 (.alone (.frame [0x58, 0x68, 0x65, 0x6C, 0x6C, 0x6F])) = .ok (.intUnknown 0x58 [0x68, 0x65, 0x6C, 0x6C, 0x6F]) ∧
  decode .ws 0 (.alone (.pair 0x4538)) = .ok (.hexpair 0x45 0x38) ∧ decode .we 7 (.select 0) = .ok .ledRed

/-! ### The assembler -/

/-- R50: the reset marker, in any state. -/
def Obligations.FeedResetResult : Prop :=
  (∀ (st : Ctl) (cur : Cursor) (b : Byte), decode st cur (.symbol (1#1 ++ b : BitVec 9)) = .ok .feedReset) ∧
  ∀ s : State, exec .feedReset s =
      .next { s with st := .ws, cur := 0, asm := ⟨none, some .protocolReset⟩, int := ⟨none, none, none⟩ } ∧
    { s with st := .ws, cur := 0, asm := ⟨none, some .protocolReset⟩, int := ⟨none, none, none⟩ }.abs = some ⟨.ws, []⟩

/-- R51: the carriage return in `WS`, with any cursor, a full buffer's included. -/
def Obligations.FeedCarriageReturnResult : Prop :=
  ∀ s : State, s.st = .ws →
    decode s.st s.cur (.symbol 0x00D) = .ok .feedWsCr ∧
    exec .feedWsCr s = .next { s with st := .we, asm := ⟨none, none⟩, int := ⟨none, none, none⟩ }

/-- R52: another byte in `WS` with `cur < CAP` is stored in cell `cur`, and no other cell changes; `cur` counts up by one. -/
def Obligations.FeedDataResult : Prop :=
  ∀ (s : State) (b : Byte), s.st = .ws → b ≠ 0x0D → s.cur.toNat < Config.CAP →
    decode s.st s.cur (.symbol (0#1 ++ b : BitVec 9)) = .ok (.feedWsData b) ∧
    ∃ t, exec (.feedWsData b) s = .next t ∧ t.st = .ws ∧ t.cur.toNat = s.cur.toNat + 1 ∧
      t.buf.read s.cur.toNat = some b ∧ (∀ a, a ≠ s.cur.toNat → t.buf.read a = s.buf.read a) ∧
      t.payload = s.payload.map (· ++ [b]) ∧ t.asm = ⟨none, none⟩ ∧ t.int = ⟨none, none, none⟩ ∧
      t.cmd = s.cmd ∧ t.val = s.val ∧ t.ins = s.ins

/-- R53 (the step): another byte in `WS` with `cur = CAP`. -/
def Obligations.FeedOverrunResult : Prop :=
  ∀ (s : State) (b : Byte), s.st = .ws → b ≠ 0x0D → s.cur.toNat = Config.CAP →
    decode s.st s.cur (.symbol (0#1 ++ b : BitVec 9)) = .ok (.feedWsOverrun b) ∧
    exec (.feedWsOverrun b) s =
      .next { s with st := .ws, cur := 0, asm := ⟨none, some .bufferOverrun⟩, int := ⟨none, none, none⟩ }

/-- R54: the line feed in `WE` emits the bytes of cells 0 up to `cur`, in order, and the interpreter's outputs for them (R69). Under
the invariants of R14, which say that those cells were written and hold no 0x0D. -/
def Obligations.FeedLineFeedResult : Prop :=
  ∀ s : State, s.Inv → s.st = .we →
    decode s.st s.cur (.symbol 0x00A) = .ok .feedWeLf ∧
    ∃ f : Frame, f.length = s.cur.toNat ∧ f.length ≤ Config.CAP ∧ 0x0D ∉ f ∧
      (∀ i, i < s.cur.toNat → f[i]? = s.buf.read i) ∧
      exec .feedWeLf s = .next { s with st := .ws, cur := 0, asm := ⟨some f, none⟩, int := interpret f }

/-- R55: another byte in `WE`. -/
def Obligations.FeedBrokenTerminatorResult : Prop :=
  ∀ (s : State) (b : Byte), s.st = .we → b ≠ 0x0A →
    decode s.st s.cur (.symbol (0#1 ++ b : BitVec 9)) = .ok (.feedWeOther b) ∧
    exec (.feedWeOther b) s =
      .next { s with st := .ws, cur := 0, asm := ⟨none, some .unexpectedTerminatorByte⟩, int := ⟨none, none, none⟩ }

/-- R56: no input is ever decoded to FEED.BADSTATE; its meaning is R56's resync. That exec gives this meaning in `WS` and `WE`, where
R56 says the case cannot arise, is the model's choice (log entry 6). -/
def Obligations.BadStateIsNeverDecoded : Prop :=
  (∀ (st : Ctl) (cur : Cursor) (r : Request) (b : Byte), decode st cur r ≠ .ok (.feedBadState b)) ∧
  ∀ (s : State) (b : Byte), exec (.feedBadState b) s =
    .next { s with st := .ws, cur := 0, asm := ⟨none, some .invalidState⟩, int := ⟨none, none, none⟩ }

/-- R36, R38, R40: a meaning called where its row is not selected refuses by the row's name, and answers no state. The refusal is
the model's choice (log entry 5); FEED.BADSTATE is stated on its own. -/
def Obligations.RowNotSelectedIsRefused : Prop :=
  ∀ (i : Instr) (s : State), (i.wellFormed && i.selectedIn s.st s.cur) = false → (∀ b, i ≠ .feedBadState b) →
    exec i s = .refused (.rowNotSelected i.mnemonic)

/-- R16, R22, R23, R36: in states no run reaches, the model stops. The copy-out faults where a cell below the cursor was never
written, and with a cursor above CAP; with such a cursor the table has no row for a byte in `WS` that is not the carriage return, and the
step refuses. The stops are the model's choice (log entries 1, 5). -/
def Obligations.StopsInUnreachableStates : Prop :=
  (∀ s : State, s.st = .we → s.cur.toNat ≤ Config.CAP → s.payload = none →
    exec .feedWeLf s = .fault (.unwrittenCell s.cur.toNat)) ∧
  (∀ s : State, s.st = .we → Config.CAP < s.cur.toNat → exec .feedWeLf s = .fault (.outsideBuffer s.cur.toNat)) ∧
  ∀ (s : State) (b : Byte) (sel : Option Sel2) (rest : List Stim), s.st = .ws → Config.CAP < s.cur.toNat → b ≠ 0x0D →
    s.ins = .clock false (some (0#1 ++ b : BitVec 9)) sel :: rest →
    step s = .refused (.undecodable .cursorOutOfRange)

/-- What each row leaves unchanged: only FEED rows change `st`, `cur` and the assembler's outputs; only FEED and INT rows the
interpreter's; only LED rows the command unit's; only the pure functions `val`; and every cell reads as before, but cell `cur` after
FEED.WS.DATA. -/
def Obligations.EachRowsFrame : Prop :=
  ∀ (i : Instr) (s t : State), exec i s = .next t →
    t.ins = s.ins ∧
    (partOf i ≠ .asm → t.st = s.st ∧ t.cur = s.cur ∧ t.asm = s.asm) ∧
    (partOf i ≠ .asm → partOf i ≠ .int → t.int = s.int) ∧
    (partOf i ≠ .cmd → t.cmd = s.cmd) ∧ (partOf i ≠ .fn → t.val = s.val) ∧
    ∀ a, (∀ b, i = .feedWsData b → a ≠ s.cur.toNat) → t.buf.read a = s.buf.read a

/-- R22: the store, inside the buffer; an index outside stores nothing and stops, under the model's own name (log entry 5). -/
def Obligations.StoreWritesOneCell : Prop :=
  ∀ (s : State) (i : Nat) (b : Byte),
    (i < Config.CAP → ∃ t, memWrite s i b = .ok t ∧ t.buf.read i = some b ∧ (∀ a, a ≠ i → t.buf.read a = s.buf.read a) ∧
      (s.buf.wf = true → t.buf.wf = true) ∧ { t with buf := s.buf } = s) ∧
    (Config.CAP ≤ i → memWrite s i b = .error (.outsideBuffer i))

/-- R59 (b): the marker, presented in any state at all, leads to (WS, []) with the diagnostic, and no cell changes. -/
def Obligations.ResetMarkerFromAnyState : Prop :=
  ∀ (s : State) (b : Byte) (sel : Option Sel2) (rest : List Stim),
    s.ins = .clock false (some (1#1 ++ b : BitVec 9)) sel :: rest →
    ∃ t, step s = .next t ∧ t.abs = some Abs.init ∧ t.asm = ⟨none, some .protocolReset⟩ ∧ t.int = ⟨none, none, none⟩ ∧
      t.buf = s.buf ∧ t.ins = rest

/-- R59 (c), R29, D1: presenting symbols in chunks, with any number of idle clocks before each chunk (and, by an empty chunk, after the
last), ends in the same abstract state and puts out the same frames, diagnostics and interpreter outputs, in the same order, as
presenting them without a gap. That what is presented is a list in the state is the model's form (log entry 4). -/
def Obligations.ChunksDoNotMatter : Prop :=
  ∀ (s : State) (chunks : List (Nat × List Sym9)) (rest : List Stim), s.Inv →
    ∃ t u a outs outs',
      runOuts (chunkClocks chunks).length { s with ins := chunkClocks chunks ++ rest } = some (t, outs) ∧
      runOuts (chunks.flatMap Prod.snd).length { s with ins := symbolClocks (chunks.flatMap Prod.snd) ++ rest } = some (u, outs') ∧
      t.abs = some a ∧ u.abs = some a ∧ heard outs = heard outs' ∧ t.ins = rest ∧ u.ins = rest

/-- R59 (a): after a CR LF pair whose CR arrives in `WS` the next line is accumulated as from the initial state, whatever came before:
a line of at most CAP bytes without 0x0D is then emitted as it is. The abstract state may also be one that no state has, with more than CAP
accumulated bytes, where the model's choice of log entry 17 counts. -/
def Obligations.NoResidueAfterTerminator : Prop :=
  ∀ (a : Abs) (xs : List Symbol) (line : List Byte), (a.feedAll xs).1.st = .ws → Config.CR ∉ line →
    line.length ≤ Config.CAP →
    (a.feedAll (xs ++ symbolsOf ([Config.CR, Config.LF] ++ line ++ [Config.CR, Config.LF]))).1 = Abs.init ∧
    (a.feedAll (xs ++ symbolsOf ([Config.CR, Config.LF] ++ line ++ [Config.CR, Config.LF]))).2.getLast? =
      some ⟨some line, none⟩

/-- R53 (b): a line of n payload bytes raises BufferOverrun n / (CAP + 1) times, no other diagnostic, and ends in one frame, its last
n mod (CAP + 1) bytes. -/
def Obligations.OverlongLineOverruns : Prop :=
  ∀ line : List Byte, Config.CR ∉ line →
    (Abs.init.feedAll (symbolsOf (line ++ [Config.CR, Config.LF]))).1 = Abs.init ∧
    (Abs.init.feedAll (symbolsOf (line ++ [Config.CR, Config.LF]))).2.filterMap AsmOut.diag =
      List.replicate (line.length / (Config.CAP + 1)) .bufferOverrun ∧
    (Abs.init.feedAll (symbolsOf (line ++ [Config.CR, Config.LF]))).2.filterMap AsmOut.frame =
      [line.drop ((Config.CAP + 1) * (line.length / (Config.CAP + 1)))]

/-- R84 (b): a frame of at most CAP bytes without 0x0D, serialised and fed byte by byte to an empty assembler, comes back as exactly
that frame in the last step, and is interpreted in that step. -/
def Obligations.SerializedFrameComesBack : Prop :=
  ∀ (s : State) (f : Frame) (rest : List Stim), s.Inv → s.st = .ws → s.cur = 0 → f.length ≤ Config.CAP → Config.CR ∉ f →
    s.ins = clocksOf (serialize f) ++ rest →
    ∃ t, core.run (f.length + 2) s = .next t ∧ t.asm = ⟨some f, none⟩ ∧ t.int = interpret f ∧
      t.abs = some Abs.init ∧ t.ins = rest

/-! ### The interpreter -/

/-- R61. -/
def Obligations.EmptyFrameResult : Prop :=
  decodeFrame [] = .intEmpty ∧ interpret [] = ⟨none, none, some .emptyFrame⟩ ∧
  ∀ s : State, exec .intEmpty s = .next { s with int := ⟨none, none, some .emptyFrame⟩ }

/-- R62. -/
def Obligations.TraceFrameResult : Prop :=
  ∀ (text : List Byte) (s : State),
    decodeFrame (0x54 :: text) = .intTrace text ∧ interpret (0x54 :: text) = ⟨some (.trace text), none, none⟩ ∧
    exec (.intTrace text) s = .next { s with int := ⟨some (.trace text), none, none⟩ }

/-- R64, with R63's echo: sub-type "54" and fewer than four bytes after it. -/
def Obligations.ShortTemperatureFrameResult : Prop :=
  ∀ (digits : List Byte) (s : State), digits.length ≤ 3 →
    decodeFrame ([0x41, 0x35, 0x34] ++ digits) = .intAppShort digits ∧
    interpret ([0x41, 0x35, 0x34] ++ digits) =
      ⟨some (.app ([0x35, 0x34] ++ digits)), none, some .temperatureFrameTooShort⟩ ∧
    exec (.intAppShort digits) s =
      .next { s with int := ⟨some (.app ([0x35, 0x34] ++ digits)), none, some .temperatureFrameTooShort⟩ }

/-- R65, with R63's echo: the bytes at offsets 1 and 2 are not "54", or are absent. -/
def Obligations.OtherApplicationFrameResult : Prop :=
  ∀ (text : List Byte) (s : State), ¬ (text[0]? = some 0x35 ∧ text[1]? = some 0x34) →
    decodeFrame (0x41 :: text) = .intAppOther text ∧
    interpret (0x41 :: text) = ⟨some (.app text), none, some .unrecognizedFrame⟩ ∧
    exec (.intAppOther text) s = .next { s with int := ⟨some (.app text), none, some .unrecognizedFrame⟩ }

/-- R66, with R63's echo: offsets 3 to 6 are decoded, the bytes after them only echoed; the event's text is the rendered temperature. -/
def Obligations.TemperatureFrameResult : Prop :=
  ∀ (a b c d : Byte) (rest : List Byte) (s : State),
    decodeFrame ([0x41, 0x35, 0x34, a, b, c, d] ++ rest) = .intAppTemp a b c d rest ∧
    interpret ([0x41, 0x35, 0x34, a, b, c, d] ++ rest) =
      ⟨some (.app ([0x35, 0x34, a, b, c, d] ++ rest)), some (temp10 (magnitude a b c d)), none⟩ ∧
    (interpret ([0x41, 0x35, 0x34, a, b, c, d] ++ rest)).tempText = some (render (temp10 (magnitude a b c d))) ∧
    exec (.intAppTemp a b c d rest) s =
      .next { s with int := ⟨some (.app ([0x35, 0x34, a, b, c, d] ++ rest)), some (temp10 (magnitude a b c d)), none⟩ }

/-- R67. -/
def Obligations.UnknownTagResult : Prop :=
  ∀ (tag : Byte) (rest : List Byte) (s : State), tag ≠ 0x54 → tag ≠ 0x41 →
    decodeFrame (tag :: rest) = .intUnknown tag rest ∧
    interpret (tag :: rest) = ⟨none, none, some .unrecognizedFrameType⟩ ∧
    exec (.intUnknown tag rest) s = .next { s with int := ⟨none, none, some .unrecognizedFrameType⟩ }

/-- R63, R68, R90: the table of classes and the pseudocode over offsets are one function: running the row a frame decodes to puts out
`interpret` of the frame. -/
def Obligations.FrameRowsAgreeWithInterpret : Prop :=
  ∀ (f : Frame) (s : State), exec (decodeFrame f) s = .next { s with int := interpret f }

/-- R60: the events of an evaluation are the echo of the bytes after the tag, if any, and then at most one of a temperature and a
diagnostic. -/
def Obligations.EventsInOrder : Prop :=
  ∀ f : Frame, ∃ es, (interpret f).events = ((interpret f).echo.toList.map Event.echo) ++ es ∧ es.length ≤ 1 ∧
    (∀ e ∈ es, ∀ x, e ≠ .echo x) ∧ ∀ x, (interpret f).echo = some x → x.text = f.drop 1

/-! ### The thermometer decoder -/

/-- R70, R40: the value of every byte. -/
def Obligations.HexDigitValue : Prop :=
  ∀ b : Byte,
    (0x30 ≤ b.toNat → b.toNat ≤ 0x39 → (hexval b).toNat = b.toNat - 0x30) ∧
    (0x41 ≤ b.toNat → b.toNat ≤ 0x46 → (hexval b).toNat = b.toNat - 0x41 + 10) ∧
    (0x61 ≤ b.toNat → b.toNat ≤ 0x66 → (hexval b).toNat = b.toNat - 0x61 + 10) ∧
    ((b.toNat < 0x30 ∨ (0x39 < b.toNat ∧ b.toNat < 0x41) ∨ (0x46 < b.toNat ∧ b.toNat < 0x61) ∨ 0x66 < b.toNat) →
      (hexval b).toNat = 0)

/-- R70: the five rows by their bit patterns, each with its value. That the value goes into `val` is the model's form (log entry 3). -/
def Obligations.HexDigitRowsResult : Prop :=
  ∀ s : State,
    (∀ d, exec (.hexvalDecLo d) s = .next { s with val := some (.nibble (BitVec.ofNat 4 d.toNat)) }) ∧
    (∀ d, exec (.hexvalDecHi d) s = .next { s with val := some (.nibble (BitVec.ofNat 4 (8 + d.toNat))) }) ∧
    (∀ d : BitVec 3, 1 ≤ d.toNat → d.toNat ≤ 6 →
      exec (.hexvalUpper d) s = .next { s with val := some (.nibble (BitVec.ofNat 4 (9 + d.toNat))) }) ∧
    (∀ d : BitVec 3, 1 ≤ d.toNat → d.toNat ≤ 6 →
      exec (.hexvalLower d) s = .next { s with val := some (.nibble (BitVec.ofNat 4 (9 + d.toNat))) }) ∧
    (∀ b, isHexDigit b = false → exec (.hexvalOther b) s = .next { s with val := some (.nibble 0) })

/-- R40, R70: the row a byte decodes to gives `hexval` of the byte: the bit patterns of the table and the ranges of the rule agree.
That the value goes into `val` is the model's form (log entry 3). -/
def Obligations.HexDigitRowsAgreeWithHexval : Prop :=
  ∀ (b : Byte) (s : State), exec (decodeHexByte b) s = .next { s with val := some (.nibble (hexval b)) }

/-- R71. That the value goes into `val` is the model's form (log entry 3). -/
def Obligations.HexPairResult : Prop :=
  ∀ (h l : Byte) (s : State),
    (hexpair h l).toNat = (hexval h).toNat * 16 + (hexval l).toNat ∧
    exec (.hexpair h l) s = .next { s with val := some (.byte (hexpair h l)) }

/-- R72. That the value goes into `val` is the model's form (log entry 3). -/
def Obligations.MagnitudeResult : Prop :=
  ∀ (a b c d : Byte) (s : State),
    (magnitude a b c d).toNat = (hexpair a b).toNat * 256 + (hexpair c d).toNat ∧
    exec (.magnitude a b c d) s = .next { s with val := some (.magnitude (magnitude a b c d)) }

/-- R74: the 19-bit output is the integer formula, within its range, and nearest to ten times the exact temperature of R73, with a margin
of 1/2046 to a tie. That the value goes into `val` is the model's form (log entry 3). -/
def Obligations.TemperatureInTenthsResult : Prop :=
  ∀ (m : Mag) (s : State),
    (temp10 m).toInt = (6280 * (m.toNat : Int) + 1023) / 2046 - 500 ∧
    -500 ≤ (temp10 m).toInt ∧ (temp10 m).toInt ≤ 200653 ∧
    |((temp10 m).toInt : ℚ) - 10 * temperature m.toNat| ≤ 1 / 2 - 1 / 2046 ∧
    exec (.temp10 m) s = .next { s with val := some (.tenths (temp10 m)) }

/-- R73, R74 (b): a larger magnitude is a higher temperature; neighbours differ by 3 or 4 tenths. -/
def Obligations.TemperatureRises : Prop :=
  (∀ m n : Mag, m.toNat < n.toNat → temperature m.toNat < temperature n.toNat ∧ (temp10 m).toInt < (temp10 n).toInt) ∧
  ∀ m n : Mag, n.toNat = m.toNat + 1 → (temp10 n).toInt = (temp10 m).toInt + 3 ∨ (temp10 n).toInt = (temp10 m).toInt + 4

/-- R75: the text of every temperature the decoder can give: sign, integer part without leading zeros, full stop, one digit; three to
seven characters, never "-0.0". That the text goes into `val` is the model's form (log entry 3). -/
def Obligations.RenderResult : Prop :=
  ∀ (t : T10) (s : State), -500 ≤ t.toInt → t.toInt ≤ 200653 →
    render t = (if t.toInt < 0 then [0x2D] else []) ++ decimalText (t.toInt.natAbs / 10) ++ [0x2E] ++
      decimalText (t.toInt.natAbs % 10) ∧
    3 ≤ (render t).length ∧ (render t).length ≤ 7 ∧ render t ≠ [0x2D, 0x30, 0x2E, 0x30] ∧
    exec (.render t) s = .next { s with val := some (.text (render t)) }

/-- Other 19-bit operands, which the decoder never gives, are rendered too: sign, integer part, full stop, one digit, in five to eight
characters; and nothing else changes. That it is by the formula of the range is the model's reading (log entry 8); that the text goes
into `val` is the model's form (log entry 3). -/
def Obligations.RenderOutsideRange : Prop :=
  ∀ (t : T10) (s : State), t.toInt < -500 ∨ 200653 < t.toInt →
    render t = (if t.toInt < 0 then [0x2D] else []) ++ decimalText (t.toInt.natAbs / 10) ++ [0x2E] ++
      decimalText (t.toInt.natAbs % 10) ∧
    5 ≤ (render t).length ∧ (render t).length ≤ 8 ∧
    exec (.render t) s = .next { s with val := some (.text (render t)) }

/-- R79: hex round trip, both ways. -/
def Obligations.HexRoundTrip : Prop :=
  (∀ v : Byte, hexpair (upperHexDigit (v.extractLsb' 4 4)) (upperHexDigit (v.extractLsb' 0 4)) = v) ∧
  ∀ h l : Byte, isHexDigit h = true → isHexDigit l = true →
    upperHexDigit ((hexpair h l).extractLsb' 4 4) = upperCase h ∧
    upperHexDigit ((hexpair h l).extractLsb' 0 4) = upperCase l

/-! ### The command unit and the output ports -/

/-- R80 to R83: each selector asks for its command, which puts out its two-byte frame and the four wire bytes, and changes nothing
else. -/
def Obligations.LedCommandsResult : Prop :=
  ∀ s : State,
    (decodeSelect 0 = .ledRed ∧
      exec .ledRed s = .next { s with cmd := ⟨some [0x4C, 0x52], some [0x4C, 0x52, 0x0D, 0x0A]⟩ }) ∧
    (decodeSelect 1 = .ledGreen ∧
      exec .ledGreen s = .next { s with cmd := ⟨some [0x4C, 0x47], some [0x4C, 0x47, 0x0D, 0x0A]⟩ }) ∧
    (decodeSelect 2 = .ledBlue ∧
      exec .ledBlue s = .next { s with cmd := ⟨some [0x4C, 0x42], some [0x4C, 0x42, 0x0D, 0x0A]⟩ }) ∧
    (decodeSelect 3 = .ledOff ∧
      exec .ledOff s = .next { s with cmd := ⟨some [0x4C, 0x30], some [0x4C, 0x30, 0x0D, 0x0A]⟩ })

/-- R84: the serialiser on any frame, evaluated alone. That the bytes are put out in `val` is the model's choice (log entry 3). -/
def Obligations.SerializeResult : Prop :=
  ∀ (f : Frame) (s : State), exec (.serialize f) s = .next { s with val := some (.wire (f ++ [0x0D, 0x0A])) }

/-- R86: the codes on the two diagnostic ports; 0 is no diagnostic. -/
def Obligations.DiagnosticCodes : Prop :=
  AsmDiag.code .protocolReset = 1 ∧ AsmDiag.code .unexpectedTerminatorByte = 2 ∧ AsmDiag.code .bufferOverrun = 3 ∧
  AsmDiag.code .invalidState = 4 ∧ IntDiag.code .emptyFrame = 5 ∧ IntDiag.code .temperatureFrameTooShort = 6 ∧
  IntDiag.code .unrecognizedFrame = 7 ∧ IntDiag.code .unrecognizedFrameType = 8 ∧
  (∀ x, asmDiagPort x = 0 ↔ x = none) ∧ (∀ x, intDiagPort x = 0 ↔ x = none)

/-- R47: the ports show the outputs of the step, whatever the unspecified bits are: a frame with its length and bytes, an echo with its
kind, length and bytes, the temperature, the four transmitted bytes. For frames and echoes that fit the ports, as those of a clock do. -/
def Obligations.PortsShowOutputs : Prop :=
  ∀ (u : Ports) (s : State),
    ((s.ports u).frameValid = true ↔ ∃ f, s.asm.frame = some f) ∧
    (∀ f, s.asm.frame = some f → f.length ≤ Config.CAP →
      (s.ports u).frameLen.toNat = f.length ∧
      ∀ i : Fin Config.CAP, i.val < f.length → some ((s.ports u).frameData[i]) = f[i.val]?) ∧
    (s.ports u).asmDiag = asmDiagPort s.asm.diag ∧ (s.ports u).intDiag = intDiagPort s.int.diag ∧
    ((s.ports u).echoKind = 0 ↔ s.int.echo = none) ∧
    (∀ x, s.int.echo = some x → x.text.length ≤ Config.CAP - 1 →
      (s.ports u).echoKind = (match x with | .trace _ => 1 | .app _ => 2) ∧ (s.ports u).echoLen.toNat = x.text.length ∧
      ∀ i : Fin (Config.CAP - 1), i.val < x.text.length → some ((s.ports u).echoData[i]) = x.text[i.val]?) ∧
    ((s.ports u).tempValid = true ↔ ∃ t, s.int.temp = some t) ∧ (∀ t, s.int.temp = some t → (s.ports u).tempT10 = t) ∧
    ((s.ports u).txValid = true ↔ ∃ bs, s.cmd.tx = some bs) ∧
    ∀ a b c d, s.cmd.tx = some [a, b, c, d] → (s.ports u).txData = #v[a, b, c, d]
end

