-- ==== Sys2Proof/Laws/State.lean ====
section
/-! SUPPORT. One lemma per field per update of the state. -/

namespace Sys2Proof.Machine

section Updates
variable (s : State) (v : Ctl) (c : Cursor) (a : AsmOut) (o : IntOut) (d : CmdOut) (p : PureValue)

@[simp] theorem State.setSt_st : (s.setSt v).st = v := rfl
@[simp] theorem State.setSt_cur : (s.setSt v).cur = s.cur := rfl
@[simp] theorem State.setSt_buf : (s.setSt v).buf = s.buf := rfl
@[simp] theorem State.setSt_asm : (s.setSt v).asm = s.asm := rfl
@[simp] theorem State.setSt_int : (s.setSt v).int = s.int := rfl
@[simp] theorem State.setSt_cmd : (s.setSt v).cmd = s.cmd := rfl
@[simp] theorem State.setSt_val : (s.setSt v).val = s.val := rfl
@[simp] theorem State.setSt_ins : (s.setSt v).ins = s.ins := rfl

@[simp] theorem State.setCur_st : (s.setCur c).st = s.st := rfl
@[simp] theorem State.setCur_cur : (s.setCur c).cur = c := rfl
@[simp] theorem State.setCur_buf : (s.setCur c).buf = s.buf := rfl
@[simp] theorem State.setCur_asm : (s.setCur c).asm = s.asm := rfl
@[simp] theorem State.setCur_int : (s.setCur c).int = s.int := rfl
@[simp] theorem State.setCur_cmd : (s.setCur c).cmd = s.cmd := rfl
@[simp] theorem State.setCur_val : (s.setCur c).val = s.val := rfl
@[simp] theorem State.setCur_ins : (s.setCur c).ins = s.ins := rfl

@[simp] theorem State.putFeed_st : (s.putFeed a o).st = s.st := rfl
@[simp] theorem State.putFeed_cur : (s.putFeed a o).cur = s.cur := rfl
@[simp] theorem State.putFeed_buf : (s.putFeed a o).buf = s.buf := rfl
@[simp] theorem State.putFeed_asm : (s.putFeed a o).asm = a := rfl
@[simp] theorem State.putFeed_int : (s.putFeed a o).int = o := rfl
@[simp] theorem State.putFeed_cmd : (s.putFeed a o).cmd = s.cmd := rfl
@[simp] theorem State.putFeed_val : (s.putFeed a o).val = s.val := rfl
@[simp] theorem State.putFeed_ins : (s.putFeed a o).ins = s.ins := rfl

@[simp] theorem State.putInt_st : (s.putInt o).st = s.st := rfl
@[simp] theorem State.putInt_cur : (s.putInt o).cur = s.cur := rfl
@[simp] theorem State.putInt_buf : (s.putInt o).buf = s.buf := rfl
@[simp] theorem State.putInt_asm : (s.putInt o).asm = s.asm := rfl
@[simp] theorem State.putInt_int : (s.putInt o).int = o := rfl
@[simp] theorem State.putInt_cmd : (s.putInt o).cmd = s.cmd := rfl
@[simp] theorem State.putInt_val : (s.putInt o).val = s.val := rfl
@[simp] theorem State.putInt_ins : (s.putInt o).ins = s.ins := rfl

@[simp] theorem State.putCmd_st : (s.putCmd d).st = s.st := rfl
@[simp] theorem State.putCmd_cur : (s.putCmd d).cur = s.cur := rfl
@[simp] theorem State.putCmd_buf : (s.putCmd d).buf = s.buf := rfl
@[simp] theorem State.putCmd_asm : (s.putCmd d).asm = s.asm := rfl
@[simp] theorem State.putCmd_int : (s.putCmd d).int = s.int := rfl
@[simp] theorem State.putCmd_cmd : (s.putCmd d).cmd = d := rfl
@[simp] theorem State.putCmd_val : (s.putCmd d).val = s.val := rfl
@[simp] theorem State.putCmd_ins : (s.putCmd d).ins = s.ins := rfl

@[simp] theorem State.putVal_st : (s.putVal p).st = s.st := rfl
@[simp] theorem State.putVal_cur : (s.putVal p).cur = s.cur := rfl
@[simp] theorem State.putVal_buf : (s.putVal p).buf = s.buf := rfl
@[simp] theorem State.putVal_asm : (s.putVal p).asm = s.asm := rfl
@[simp] theorem State.putVal_int : (s.putVal p).int = s.int := rfl
@[simp] theorem State.putVal_cmd : (s.putVal p).cmd = s.cmd := rfl
@[simp] theorem State.putVal_val : (s.putVal p).val = some p := rfl
@[simp] theorem State.putVal_ins : (s.putVal p).ins = s.ins := rfl

@[simp] theorem State.begin_st : s.begin.st = s.st := rfl
@[simp] theorem State.begin_cur : s.begin.cur = s.cur := rfl
@[simp] theorem State.begin_buf : s.begin.buf = s.buf := rfl
@[simp] theorem State.begin_asm : s.begin.asm = AsmOut.none := rfl
@[simp] theorem State.begin_int : s.begin.int = IntOut.none := rfl
@[simp] theorem State.begin_cmd : s.begin.cmd = CmdOut.none := rfl
@[simp] theorem State.begin_val : s.begin.val = none := rfl
@[simp] theorem State.begin_ins : s.begin.ins = s.ins.tail := rfl

@[simp] theorem State.hardReset_st : s.hardReset.st = .ws := rfl
@[simp] theorem State.hardReset_cur : s.hardReset.cur = 0 := rfl
@[simp] theorem State.hardReset_buf : s.hardReset.buf = s.buf := rfl
@[simp] theorem State.hardReset_asm : s.hardReset.asm = AsmOut.none := rfl
@[simp] theorem State.hardReset_int : s.hardReset.int = IntOut.none := rfl
@[simp] theorem State.hardReset_cmd : s.hardReset.cmd = CmdOut.none := rfl
@[simp] theorem State.hardReset_val : s.hardReset.val = none := rfl
@[simp] theorem State.hardReset_ins : s.hardReset.ins = s.ins := rfl

@[simp] theorem State.raise_st (x : AsmDiag) : (s.raise x).st = .ws := rfl
@[simp] theorem State.raise_cur (x : AsmDiag) : (s.raise x).cur = 0 := rfl
@[simp] theorem State.raise_buf (x : AsmDiag) : (s.raise x).buf = s.buf := rfl
@[simp] theorem State.raise_asm (x : AsmDiag) : (s.raise x).asm = ⟨none, some x⟩ := rfl
@[simp] theorem State.raise_int (x : AsmDiag) : (s.raise x).int = IntOut.none := rfl
@[simp] theorem State.raise_cmd (x : AsmDiag) : (s.raise x).cmd = s.cmd := rfl
@[simp] theorem State.raise_val (x : AsmDiag) : (s.raise x).val = s.val := rfl
@[simp] theorem State.raise_ins (x : AsmDiag) : (s.raise x).ins = s.ins := rfl

@[simp] theorem State.send_st (sel : Selector) : (s.send sel).st = s.st := rfl
@[simp] theorem State.send_cur (sel : Selector) : (s.send sel).cur = s.cur := rfl
@[simp] theorem State.send_buf (sel : Selector) : (s.send sel).buf = s.buf := rfl
@[simp] theorem State.send_asm (sel : Selector) : (s.send sel).asm = s.asm := rfl
@[simp] theorem State.send_int (sel : Selector) : (s.send sel).int = s.int := rfl
@[simp] theorem State.send_cmd (sel : Selector) : (s.send sel).cmd = ⟨some (buildLedCommand sel), some (serialize (buildLedCommand sel))⟩ := rfl
@[simp] theorem State.send_val (sel : Selector) : (s.send sel).val = s.val := rfl
@[simp] theorem State.send_ins (sel : Selector) : (s.send sel).ins = s.ins := rfl

end Updates

@[simp] theorem State.reset_st : State.reset.st = .ws := rfl
@[simp] theorem State.reset_cur : State.reset.cur = 0 := rfl
@[simp] theorem State.reset_buf : State.reset.buf = [] := rfl
@[simp] theorem State.reset_asm : State.reset.asm = AsmOut.none := rfl
@[simp] theorem State.reset_int : State.reset.int = IntOut.none := rfl
@[simp] theorem State.reset_cmd : State.reset.cmd = CmdOut.none := rfl
@[simp] theorem State.reset_val : State.reset.val = none := rfl
@[simp] theorem State.reset_ins : State.reset.ins = [] := rfl

@[simp] theorem AsmOut.none_frame : AsmOut.none.frame = .none := rfl
@[simp] theorem AsmOut.none_diag : AsmOut.none.diag = .none := rfl
@[simp] theorem IntOut.none_echo : IntOut.none.echo = .none := rfl
@[simp] theorem IntOut.none_temp : IntOut.none.temp = .none := rfl
@[simp] theorem IntOut.none_diag : IntOut.none.diag = .none := rfl
@[simp] theorem CmdOut.none_frame : CmdOut.none.frame = .none := rfl
@[simp] theorem CmdOut.none_tx : CmdOut.none.tx = .none := rfl

end Sys2Proof.Machine
end

