-- ==== Sys2Proof/Laws/Decode.lean ====
section
/-! SUPPORT. Small facts about the fields of encoded words, so that no later proof works on bits. -/

namespace Sys2Proof

/-- A field above the low operand of a concatenation is a field of the high operand. -/
theorem extract_append_above {m n : Nat} (x : BitVec m) (y : BitVec n) (k len : Nat) :
    (x ++ y).extractLsb' (n + k) len = x.extractLsb' k len := by
  ext i hi
  simp only [BitVec.getElem_extractLsb', BitVec.getLsbD_append]
  rw [if_neg (by omega)]
  congr 1
  omega

/-- The high operand of a concatenation. -/
theorem extract_append_high {m n : Nat} (x : BitVec m) (y : BitVec n) : (x ++ y).extractLsb' n m = x := by
  have h := extract_append_above x y 0 m
  rw [Nat.add_zero] at h
  rw [h]
  ext i hi
  simp

/-- The low operand of a concatenation. -/
theorem extract_append_low {m n : Nat} (x : BitVec m) (y : BitVec n) : (x ++ y).extractLsb' 0 n = y := by
  ext i hi
  simp only [BitVec.getElem_extractLsb', BitVec.getLsbD_append, Nat.zero_add]
  rw [if_pos hi, BitVec.getLsbD_eq_getElem hi]

/-- The two byte fields of a HEXPAIR word (42_thermometer.md R71). -/
theorem decodePure_pair (h l : Byte) : decodePure (.pair (h ++ l)) = .hexpair h l :=
  congrArg₂ Instr.hexpair (extract_append_high h l) (extract_append_low h l)

/-- The four byte fields of a MAGNITUDE word (42_thermometer.md R72). -/
theorem decodePure_quad (a b c d : Byte) : decodePure (.quad (a ++ b ++ c ++ d)) = .magnitude a b c d := by
  have ha := (extract_append_above (a ++ b ++ c) d 16 8).trans
    ((extract_append_above (a ++ b) c 8 8).trans (extract_append_high a b))
  have hb := (extract_append_above (a ++ b ++ c) d 8 8).trans
    ((extract_append_above (a ++ b) c 0 8).trans (extract_append_low a b))
  have hc := (extract_append_above (a ++ b ++ c) d 0 8).trans (extract_append_low (a ++ b) c)
  have hd := extract_append_low (a ++ b ++ c) d
  exact congr (congr (congr (congrArg Instr.magnitude ha) hb) hc) hd

/-- A 9-bit symbol is a marker with some byte field, or a byte (30_encoding.md R34). -/
theorem sym_cases (sym : Sym9) :
    (∃ b : Byte, sym = (1#1 ++ b : BitVec (1 + 8))) ∨ ∃ b : Byte, sym = (0#1 ++ b : BitVec (1 + 8)) := by
  cases h : sym.getLsbD 8
  · right
    refine ⟨sym.extractLsb' 0 8, ?_⟩
    ext i hi
    rw [BitVec.getElem_append]
    split_ifs with h2
    · simpa using (BitVec.getLsbD_eq_getElem hi).symm
    · obtain rfl : i = 8 := by omega
      simpa using h
  · left
    refine ⟨sym.extractLsb' 0 8, ?_⟩
    ext i hi
    rw [BitVec.getElem_append]
    split_ifs with h2
    · simpa using (BitVec.getLsbD_eq_getElem hi).symm
    · obtain rfl : i = 8 := by omega
      simpa using h

/-- A text that begins with the sub-type begins with its two bytes. -/
theorem startsWithSubType_eq {text : List Byte} (h : startsWithSubType text = true) :
    ∃ rest, text = Config.SUB_TEMP0 :: Config.SUB_TEMP1 :: rest := by
  match text with
  | [] => cases h
  | [_] => cases h
  | a :: b :: rest =>
    simp only [startsWithSubType, Bool.and_eq_true, beq_iff_eq] at h
    exact ⟨rest, by rw [h.1, h.2]⟩

end Sys2Proof
end

