-- ==== Sys2Proof/Laws/Memory.lean ====
section
/-! SUPPORT. The laws of the buffer: read after write, the canonical form, the copy-out. -/

namespace Sys2Proof.Machine

@[simp] theorem Memory.read_nil (a : Nat) : Memory.read [] a = none := rfl

@[simp] theorem Memory.copy_zero (m : Memory) : m.copy 0 = some [] := rfl

@[simp] theorem Memory.read_write_same (m : Memory) (a : Nat) (b : Byte) : (m.write a b).read a = some b := by
  induction m with
  | nil => simp [Memory.write, Memory.read]
  | cons c m ih =>
    obtain ⟨k, v⟩ := c
    simp only [Memory.write]
    split_ifs with h₁ h₂
    · simp [Memory.read]
    · simp [Memory.read]
    · simpa [Memory.read, h₂] using ih

theorem Memory.read_write_other (m : Memory) {a a' : Nat} (b : Byte) (h : a' ≠ a) :
    (m.write a b).read a' = m.read a' := by
  induction m with
  | nil => simp [Memory.write, Memory.read, h]
  | cons c m ih =>
    obtain ⟨k, v⟩ := c
    simp only [Memory.write]
    split_ifs with h₁ h₂
    · simp [Memory.read, h]
    · subst h₂; simp [Memory.read, h]
    · simp only [Memory.read, ih]

theorem Memory.wfFrom_write {lo a : Nat} (m : Memory) (b : Byte) (hm : Memory.wfFrom lo m = true) (hlo : lo ≤ a)
    (ha : a < Config.CAP) : Memory.wfFrom lo (m.write a b) = true := by
  induction m generalizing lo with
  | nil => simpa [Memory.write, Memory.wfFrom] using ⟨hlo, ha⟩
  | cons c m ih =>
    obtain ⟨k, v⟩ := c
    simp only [Memory.wfFrom, Bool.and_eq_true, decide_eq_true_eq] at hm
    obtain ⟨⟨hk, hcap⟩, hm⟩ := hm
    simp only [Memory.write]
    split_ifs with h₁ h₂
    · simpa [Memory.wfFrom, hlo, ha, hcap, hm] using h₁
    · subst h₂; simp [Memory.wfFrom, hk, hcap, hm]
    · simp [Memory.wfFrom, hk, hcap, ih hm (by omega)]

/-- A store inside the buffer keeps the canonical form. -/
theorem Memory.wf_write {m : Memory} {a : Nat} (b : Byte) (hm : m.wf = true) (ha : a < Config.CAP) :
    (m.write a b).wf = true :=
  Memory.wfFrom_write m b hm (Nat.zero_le a) ha

theorem State.reset_buf_wf : State.reset.buf.wf = true := rfl

theorem Memory.read_of_wfFrom_lt {lo a : Nat} (m : Memory) (hm : Memory.wfFrom lo m = true) (ha : a < lo) :
    m.read a = none := by
  induction m generalizing lo with
  | nil => rfl
  | cons c m ih =>
    obtain ⟨k, v⟩ := c
    simp only [Memory.wfFrom, Bool.and_eq_true, decide_eq_true_eq] at hm
    simp [Memory.read, show a ≠ k by omega, ih hm.2 (by omega)]

theorem Memory.ext_from {lo : Nat} (m₁ m₂ : Memory) (h₁ : Memory.wfFrom lo m₁ = true) (h₂ : Memory.wfFrom lo m₂ = true)
    (h : ∀ a, m₁.read a = m₂.read a) : m₁ = m₂ := by
  induction m₁ generalizing m₂ lo with
  | nil =>
    cases m₂ with
    | nil => rfl
    | cons c m => have := h c.1; simp [Memory.read] at this
  | cons c m₁ ih =>
    obtain ⟨k, v⟩ := c
    cases m₂ with
    | nil => have := h k; simp [Memory.read] at this
    | cons c' m₂ =>
      obtain ⟨k', v'⟩ := c'
      simp only [Memory.wfFrom, Bool.and_eq_true, decide_eq_true_eq] at h₁ h₂
      have hk : k = k' := by
        by_contra hne
        rcases Nat.lt_or_gt_of_ne hne with hlt | hlt
        · have := h k
          simp [Memory.read, hne, Memory.read_of_wfFrom_lt m₂ h₂.2 (show k < k' + 1 by omega)] at this
        · have := h k'
          simp [Memory.read, Ne.symm hne, Memory.read_of_wfFrom_lt m₁ h₁.2 (show k' < k + 1 by omega)] at this
      subst hk
      have hv : v = v' := by have := h k; simpa [Memory.read] using this
      subst hv
      have := ih m₂ h₁.2 h₂.2 fun a => by
        have := h a
        by_cases ha : a = k
        · subst ha
          rw [Memory.read_of_wfFrom_lt m₁ h₁.2 (by omega), Memory.read_of_wfFrom_lt m₂ h₂.2 (by omega)]
        · simpa [Memory.read, ha] using this
      rw [this]

/-- Canonical memories that read alike are equal data. -/
theorem Memory.ext_wf {m₁ m₂ : Memory} (h₁ : m₁.wf = true) (h₂ : m₂.wf = true) (h : ∀ a, m₁.read a = m₂.read a) :
    m₁ = m₂ :=
  Memory.ext_from m₁ m₂ h₁ h₂ h

/-- A store at or above `n` does not show in the copy-out of `n` cells. -/
theorem Memory.copy_write_ge (m : Memory) {n a : Nat} (b : Byte) (h : n ≤ a) : (m.write a b).copy n = m.copy n := by
  induction n with
  | zero => rfl
  | succ n ih => simp only [Memory.copy, ih (by omega), Memory.read_write_other m b (show n ≠ a by omega)]

/-- The append of rule R52: the copy-out grows by the stored byte. -/
theorem Memory.copy_succ_write (m : Memory) (n : Nat) (b : Byte) :
    (m.write n b).copy (n + 1) = (m.copy n).map (· ++ [b]) := by
  rw [Memory.copy, Memory.copy_write_ge m b (Nat.le_refl n), Memory.read_write_same]
  cases m.copy n <;> rfl

/-- A copy-out has as many bytes as cells were asked for. -/
theorem Memory.copy_length {m : Memory} {n : Nat} {f : List Byte} (h : m.copy n = some f) : f.length = n := by
  induction n generalizing f with
  | zero => simp only [Memory.copy, Option.some.injEq] at h; subst h; rfl
  | succ n ih =>
    simp only [Memory.copy] at h
    split at h
    · rename_i bs b hbs _
      simp only [Option.some.injEq] at h
      subst h
      simp [ih hbs]
    · cases h

/-- Offset `i` of a copy-out is cell `i` (20_memory.md R21). -/
theorem Memory.copy_getElem? {m : Memory} {n i : Nat} {f : List Byte} (h : m.copy n = some f) (hi : i < n) :
    f[i]? = m.read i := by
  induction n generalizing f with
  | zero => omega
  | succ n ih =>
    simp only [Memory.copy] at h
    split at h
    · rename_i bs b hbs hb
      simp only [Option.some.injEq] at h
      subst h
      have hlen := Memory.copy_length hbs
      rcases Nat.lt_or_ge i n with hlt | hge
      · rw [List.getElem?_append_left (by omega)]; exact ih hbs hlt
      · obtain rfl : i = n := by omega
        rw [List.getElem?_append_right (by omega), hlen]
        simp [hb]
    · cases h

/-- What a store can do (20_memory.md R22). -/
theorem memWrite_eq_ok {s s' : State} {i : Nat} {b : Byte} (h : memWrite s i b = .ok s') :
    i < Config.CAP ∧ s' = { s with buf := s.buf.write i b } := by
  unfold memWrite at h
  split at h
  · rename_i hi; cases h; exact ⟨hi, rfl⟩
  · cases h

theorem memWrite_of_lt (s : State) {i : Nat} (b : Byte) (h : i < Config.CAP) :
    memWrite s i b = .ok { s with buf := s.buf.write i b } := if_pos h

theorem memWrite_of_ge (s : State) {i : Nat} (b : Byte) (h : Config.CAP ≤ i) : memWrite s i b = .error (.outsideBuffer i) :=
  if_neg (Nat.not_lt.mpr h)

/-- What a copy-out can do (20_memory.md R23). -/
theorem memRead_eq_ok {s : State} {n : Nat} {f : Frame} (h : memRead s n = .ok f) :
    n ≤ Config.CAP ∧ s.buf.copy n = some f := by
  unfold memRead at h
  split at h
  · rename_i hn
    split at h
    · rename_i g hg; cases h; exact ⟨hn, hg⟩
    · cases h
  · cases h

theorem memRead_of_copy {s : State} {n : Nat} {f : Frame} (hn : n ≤ Config.CAP) (h : s.buf.copy n = some f) :
    memRead s n = .ok f := by
  rw [memRead, if_pos hn, h]

theorem memRead_of_unwritten {s : State} {n : Nat} (hn : n ≤ Config.CAP) (h : s.buf.copy n = none) :
    memRead s n = .error (.unwrittenCell n) := by
  rw [memRead, if_pos hn, h]

theorem memRead_of_gt (s : State) {n : Nat} (h : Config.CAP < n) : memRead s n = .error (.outsideBuffer n) :=
  if_neg (Nat.not_le.mpr h)

end Sys2Proof.Machine
end

