-- ==== Sys2Proof/Laws/Ops.lean ====
section
/-! SUPPORT. What the shared operations and the meanings can do, said once. -/

namespace Sys2Proof.Machine

/-- A guarded meaning that answers a next state was selected. -/
theorem guardRow_eq_next {c : Bool} {mn : String} {r : Host.Outcome State Fault Refusal} {t : State}
    (h : guardRow c mn r = .next t) : c = true ∧ r = .next t := by
  unfold guardRow at h
  split at h
  · exact ⟨‹_›, h⟩
  · cases h

theorem guardRow_of (c : Bool) (mn : String) (r : Host.Outcome State Fault Refusal) (h : c = true) : guardRow c mn r = r :=
  if_pos h

/-- The resync shares one effect: the payload is empty, `st` is `WS`, no cell changes (60_exceptions.md R88). -/
theorem State.raise_payload (s : State) (x : AsmDiag) : (s.raise x).payload = some [] := rfl

@[simp] theorem State.payload_of_cur_zero {s : State} (h : s.cur = 0) : s.payload = some [] := by
  rw [State.payload, h]; rfl

/-- The payload has as many bytes as the cursor counts (10_state.md R11). -/
theorem State.payload_length {s : State} {acc : List Byte} (h : s.payload = some acc) : acc.length = s.cur.toNat :=
  Memory.copy_length h

theorem Cursor.toNat_lt (c : Cursor) : c.toNat < 64 := c.isLt

/-- The cursor counts up by one below CAP; it does not wrap (10_state.md R11). -/
theorem Cursor.toNat_succ {c : Cursor} (h : c.toNat < Config.CAP) : (c + 1).toNat = c.toNat + 1 := by
  have : Config.CAP = 40 := rfl
  rw [BitVec.toNat_add, show (1 : Cursor).toNat = 1 from rfl]
  exact Nat.mod_eq_of_lt (show c.toNat + 1 < 64 by omega)

/-- The append of rule R52 on the accumulated payload. -/
theorem State.payload_append (s : State) (b : Byte) (a : AsmOut) (o : IntOut) (h : s.cur.toNat < Config.CAP) :
    (({ s with buf := s.buf.write s.cur.toNat b }.setCur (s.cur + 1)).putFeed a o).payload = s.payload.map (· ++ [b]) := by
  unfold State.payload
  rw [State.putFeed_cur, State.setCur_cur, Cursor.toNat_succ h]
  exact Memory.copy_succ_write s.buf s.cur.toNat b

/-- Every outcome of FEED.WS.DATA that is a next state. -/
theorem execFeedWsData_eq_next {b : Byte} {s t : State} (h : execFeedWsData b s = .next t) :
    s.st = .ws ∧ b ≠ Config.CR ∧ s.cur.toNat < Config.CAP ∧
      t = ({ s with buf := s.buf.write s.cur.toNat b }.setCur (s.cur + 1)).putFeed AsmOut.none IntOut.none := by
  obtain ⟨hc, h⟩ := guardRow_eq_next h
  simp only [Bool.and_eq_true, beq_iff_eq, bne_iff_ne, decide_eq_true_eq] at hc
  obtain ⟨⟨h₁, h₂⟩, h₃⟩ := hc
  rw [memWrite_of_lt s b h₃] at h
  cases h
  exact ⟨h₁, h₂, h₃, rfl⟩

/-- Every outcome of FEED.WE.LF that is a next state. -/
theorem execFeedWeLf_eq_next {s t : State} (h : execFeedWeLf s = .next t) :
    s.st = .we ∧ s.cur.toNat ≤ Config.CAP ∧ ∃ f, s.payload = some f ∧
      t = ((s.setCur 0).setSt .ws).putFeed ⟨some f, none⟩ (interpret f) := by
  obtain ⟨hc, h⟩ := guardRow_eq_next h
  split at h
  · rename_i f hf
    obtain ⟨hn, hcopy⟩ := memRead_eq_ok hf
    cases h
    exact ⟨by simpa using hc, hn, f, hcopy, rfl⟩
  · cases h

/-- What FEED rows do to the registers: one of the four register effects of 40_assembler_feed.md R57. -/
inductive FeedEffect (s t : State) : Prop where
  | raised (x : AsmDiag) (h : t = s.raise x)
  | awaited (hs : s.st = .ws) (h : t = (s.setSt .we).putFeed AsmOut.none IntOut.none)
  | stored (b : Byte) (hs : s.st = .ws) (hb : b ≠ Config.CR) (hc : s.cur.toNat < Config.CAP)
      (h : t = ({ s with buf := s.buf.write s.cur.toNat b }.setCur (s.cur + 1)).putFeed AsmOut.none IntOut.none)
  | emitted (f : Frame) (hs : s.st = .we) (hc : s.cur.toNat ≤ Config.CAP) (hf : s.payload = some f)
      (h : t = ((s.setCur 0).setSt .ws).putFeed ⟨some f, none⟩ (interpret f))

/-- What any instruction can do: a FEED effect, or outputs alone. -/
inductive Effect (s t : State) : Prop where
  | feed (h : FeedEffect s t)
  | interpreted (o : IntOut) (h : t = s.putInt o)
  | valued (v : PureValue) (h : t = s.putVal v)
  | sent (sel : Selector) (h : t = s.send sel)

/-- The inversion of exec: every next state is one of the effects. -/
theorem exec_effect {i : Instr} {s t : State} (h : exec i s = .next t) : Effect s t := by
  cases i with
  | feedReset => cases h; exact .feed (.raised _ rfl)
  | feedWsCr =>
    obtain ⟨hc, h⟩ := guardRow_eq_next h
    cases h; exact .feed (.awaited (by simpa using hc) rfl)
  | feedWsData b =>
    obtain ⟨h₁, h₂, h₃, h₄⟩ := execFeedWsData_eq_next h
    exact .feed (.stored b h₁ h₂ h₃ h₄)
  | feedWsOverrun b =>
    obtain ⟨_, h⟩ := guardRow_eq_next h
    cases h; exact .feed (.raised _ rfl)
  | feedWeLf =>
    obtain ⟨h₁, h₂, f, h₃, h₄⟩ := execFeedWeLf_eq_next h
    exact .feed (.emitted f h₁ h₂ h₃ h₄)
  | feedWeOther b =>
    obtain ⟨_, h⟩ := guardRow_eq_next h
    cases h; exact .feed (.raised _ rfl)
  | feedBadState b => cases h; exact .feed (.raised _ rfl)
  | intEmpty => cases h; exact .interpreted _ rfl
  | intTrace _ => cases h; exact .interpreted _ rfl
  | intAppTemp _ _ _ _ _ => cases h; exact .interpreted _ rfl
  | intAppShort _ => obtain ⟨_, h⟩ := guardRow_eq_next h; cases h; exact .interpreted _ rfl
  | intAppOther _ => obtain ⟨_, h⟩ := guardRow_eq_next h; cases h; exact .interpreted _ rfl
  | intUnknown _ _ => obtain ⟨_, h⟩ := guardRow_eq_next h; cases h; exact .interpreted _ rfl
  | hexvalDecLo _ => cases h; exact .valued _ rfl
  | hexvalDecHi _ => cases h; exact .valued _ rfl
  | hexvalUpper _ => obtain ⟨_, h⟩ := guardRow_eq_next h; cases h; exact .valued _ rfl
  | hexvalLower _ => obtain ⟨_, h⟩ := guardRow_eq_next h; cases h; exact .valued _ rfl
  | hexvalOther _ => obtain ⟨_, h⟩ := guardRow_eq_next h; cases h; exact .valued _ rfl
  | hexpair _ _ => cases h; exact .valued _ rfl
  | magnitude _ _ _ _ => cases h; exact .valued _ rfl
  | temp10 _ => cases h; exact .valued _ rfl
  | render _ => cases h; exact .valued _ rfl
  | ledRed => cases h; exact .sent _ rfl
  | ledGreen => cases h; exact .sent _ rfl
  | ledBlue => cases h; exact .sent _ rfl
  | ledOff => cases h; exact .sent _ rfl
  | serialize _ => cases h; exact .valued _ rfl

/-- One request: it decodes, and its instruction runs. -/
theorem runRequest_eq_next {r : Request} {s t : State} (h : runRequest r s = .next t) :
    ∃ i, decode s.st s.cur r = .ok i ∧ exec i s = .next t := by
  unfold runRequest at h
  split at h
  · exact ⟨_, ‹_›, h⟩
  · cases h

/-- Requests in a row: a property that each instruction keeps is kept by all. -/
theorem runRequests_keeps {P : State → Prop} (hP : ∀ i s t, exec i s = .next t → P s → P t) {rs : List Request}
    {s t : State} (h : runRequests rs s = .next t) (hs : P s) : P t := by
  induction rs generalizing s with
  | nil => cases h; exact hs
  | cons r rs ih =>
    rw [runRequests] at h
    split at h
    · rename_i s' hr
      obtain ⟨i, _, hi⟩ := runRequest_eq_next hr
      exact ih h (hP i s s' hi hs)
    · cases h
    · cases h

/-- A step: a property that taking the stimulus, hardware reset and each instruction keep is kept by the step. -/
theorem step_keeps {P : State → Prop} (hBegin : ∀ s, P s → P s.begin) (hReset : ∀ s, P s → P s.hardReset)
    (hExec : ∀ i s t, exec i s = .next t → P s → P t) {s t : State} (h : step s = .next t) (hs : P s) : P t := by
  unfold step runStim at h
  split at h
  · cases h; exact hReset _ (hBegin s hs)
  · exact runRequests_keeps hExec h (hBegin s hs)

end Sys2Proof.Machine
end

