-- ==== Sys2Proof/Laws/PerInstr.lean ====
section
/-! SUPPORT. Laws made per instruction. TableFit: the encoder's word for a well-formed instruction has the fixed part that
spec/opcode_table.json gives the instruction's row. -/

namespace Sys2Proof.Laws.TableFit

/-- The encoded request fits the row. -/
def Statement (i : Instr) : Prop := i.wellFormed = true → i.fits (encode i) = true

theorem symbol_marker_clear (b : Byte) : (0#1 ++ b : BitVec 9).toNat &&& 0x100 = 0 := by
  revert b; decide

theorem feedReset : Statement .feedReset := fun _ => rfl

theorem feedWsCr : Statement .feedWsCr := fun _ => rfl

theorem feedWsData (b : Byte) : Statement (.feedWsData b) := by
  intro _
  simp only [Instr.fits, encode, requestWord, Instr.fixedPart, symbol_marker_clear, beq_self_eq_true]

theorem feedWsOverrun (b : Byte) : Statement (.feedWsOverrun b) := by
  intro _
  simp only [Instr.fits, encode, requestWord, Instr.fixedPart, symbol_marker_clear, beq_self_eq_true]

theorem feedWeLf : Statement .feedWeLf := fun _ => rfl

theorem feedWeOther (b : Byte) : Statement (.feedWeOther b) := by
  intro _
  simp only [Instr.fits, encode, requestWord, Instr.fixedPart, symbol_marker_clear, beq_self_eq_true]

theorem feedBadState (b : Byte) : Statement (.feedBadState b) := by
  intro _
  simp only [Instr.fits, encode, requestWord, Instr.fixedPart, symbol_marker_clear, beq_self_eq_true]

theorem intEmpty : Statement .intEmpty := fun _ => rfl

theorem intTrace (text : List Byte) : Statement (.intTrace text) := by
  intro _
  simp [Instr.fits, Instr.fixedPart, encode, requestWord, bytesWord, Config.TAG_TRACE]

theorem intAppTemp (a b c d : Byte) (rest : List Byte) : Statement (.intAppTemp a b c d rest) := by
  intro _
  simp [Instr.fits, Instr.fixedPart, encode, requestWord, bytesWord, Config.TAG_APP, Config.SUB_TEMP0, Config.SUB_TEMP1]

theorem intAppShort (digits : List Byte) : Statement (.intAppShort digits) := by
  intro _
  simp [Instr.fits, Instr.fixedPart, encode, requestWord, bytesWord, Config.TAG_APP, Config.SUB_TEMP0, Config.SUB_TEMP1]

theorem intAppOther (text : List Byte) : Statement (.intAppOther text) := by
  intro _
  simp [Instr.fits, Instr.fixedPart, encode, requestWord, bytesWord, Config.TAG_APP]

theorem intUnknown (tag : Byte) (rest : List Byte) : Statement (.intUnknown tag rest) := by
  intro _
  simp [Instr.fits, Instr.fixedPart]

theorem hexvalDecLo (d : BitVec 3) : Statement (.hexvalDecLo d) := by
  unfold Statement
  revert d
  decide

theorem hexvalDecHi (d : BitVec 1) : Statement (.hexvalDecHi d) := by
  unfold Statement
  revert d
  decide

theorem hexvalUpper (d : BitVec 3) : Statement (.hexvalUpper d) := by
  unfold Statement
  revert d
  decide

theorem hexvalLower (d : BitVec 3) : Statement (.hexvalLower d) := by
  unfold Statement
  revert d
  decide

theorem hexvalOther (b : Byte) : Statement (.hexvalOther b) := by
  intro _
  simp [Instr.fits, Instr.fixedPart]

theorem hexpair (h l : Byte) : Statement (.hexpair h l) := by
  intro _
  simp [Instr.fits, Instr.fixedPart]

theorem magnitude (a b c d : Byte) : Statement (.magnitude a b c d) := by
  intro _
  simp [Instr.fits, Instr.fixedPart]

theorem temp10 (m : Mag) : Statement (.temp10 m) := by
  intro _
  simp [Instr.fits, Instr.fixedPart]

theorem render (t : T10) : Statement (.render t) := by
  intro _
  simp [Instr.fits, Instr.fixedPart]

theorem ledRed : Statement .ledRed := fun _ => rfl

theorem ledGreen : Statement .ledGreen := fun _ => rfl

theorem ledBlue : Statement .ledBlue := fun _ => rfl

theorem ledOff : Statement .ledOff := fun _ => rfl

theorem serialize (f : Frame) : Statement (.serialize f) := by
  intro _
  simp [Instr.fits, Instr.fixedPart, encode, requestWord, bytesWord, Config.CR, Config.LF]

end Sys2Proof.Laws.TableFit
end

