-- ==== Sys2Proof/Laws/Step.lean ====
section
/-! SUPPORT. What one step can do, said once. -/

namespace Sys2Proof.Machine

/-- A command request always answers, with the command unit's outputs and nothing else. -/
theorem runRequest_select (sel : Sel2) (s : State) : runRequest (.select sel) s = .next (s.send (selectorOf sel)) := by
  simp only [runRequest, decode, decodeSelect]
  cases selectorOf sel <;> rfl

/-- The cases of a step that answers a next state. -/
inductive StepCase (s t : State) : Prop where
  | hardReset (h : stimIsReset s.stim = true) (ht : t = s.begin.hardReset)
  | idle (h : s.stim = .clock false none none) (ht : t = s.begin)
  | symbol (sym : Sym9) (i : Instr) (h : s.stim = .clock false (some sym) none) (hi : decodeSymbol s.st s.cur sym = .ok i)
      (ht : exec i s.begin = .next t)
  | command (sel : Sel2) (h : s.stim = .clock false none (some sel)) (ht : t = s.begin.send (selectorOf sel))
  | both (sym : Sym9) (sel : Sel2) (i : Instr) (u : State) (h : s.stim = .clock false (some sym) (some sel))
      (hi : decodeSymbol s.st s.cur sym = .ok i) (hu : exec i s.begin = .next u) (ht : t = u.send (selectorOf sel))
  | alone (r : PureRequest) (h : s.stim = .alone r) (ht : exec (decodePure r) s.begin = .next t)

/-- The inversion of step. -/
theorem step_cases {s t : State} (h : step s = .next t) : StepCase s t := by
  simp only [step, runStim] at h
  split_ifs at h with hr
  · cases h
    exact .hardReset hr rfl
  · cases hx : s.stim with
    | alone r =>
      rw [hx] at h
      simp only [stimRequests, runRequests] at h
      split at h <;> cases h
      rename_i ht
      exact .alone r hx ht
    | clock rst sym sel =>
      rw [hx] at h hr
      simp only [stimIsReset, Bool.not_eq_true] at hr
      subst hr
      cases sym with
      | none =>
        cases sel with
        | none =>
          simp only [stimRequests, Option.toList, List.map_nil, List.append_nil, runRequests, Host.Outcome.next.injEq] at h
          exact .idle hx h.symm
        | some sel =>
          simp only [stimRequests, Option.toList, List.map_nil, List.nil_append, List.map_cons, runRequests,
            runRequest_select, Host.Outcome.next.injEq] at h
          exact .command sel hx h.symm
      | some sym =>
        cases sel with
        | none =>
          simp only [stimRequests, Option.toList, List.map_nil, List.append_nil, List.map_cons, runRequests] at h
          split at h <;> cases h
          rename_i ht
          obtain ⟨i, hi, ht⟩ := runRequest_eq_next ht
          exact .symbol sym i hx hi ht
        | some sel =>
          simp only [stimRequests, Option.toList, List.map_nil, List.map_cons, List.cons_append, List.nil_append, runRequests,
            runRequest_select] at h
          split at h <;> cases h
          rename_i hu
          obtain ⟨i, hi, hu⟩ := runRequest_eq_next hu
          exact .both sym sel i _ hx hi hu rfl

@[simp] theorem runOuts_zero (s : State) : runOuts 0 s = some (s, []) := rfl

/-- The first of several steps. -/
theorem runOuts_succ {k : Nat} {s t : State} (h : step s = .next t) :
    runOuts (k + 1) s = (runOuts k t).map fun r => (r.1, (t.asm, t.int) :: r.2) := by
  rw [runOuts, h]

@[simp] theorem heard_nil : heard [] = [] := rfl

/-- A step that puts nothing out is not heard. -/
@[simp] theorem heard_silent (outs : List (AsmOut × IntOut)) : heard ((AsmOut.none, IntOut.none) :: outs) = heard outs :=
  List.filter_cons_of_neg (by simp)

/-- What the outputs of one step add to those of the steps after it. -/
theorem heard_cons (o : AsmOut × IntOut) (outs : List (AsmOut × IntOut)) : heard (o :: outs) = heard [o] ++ heard outs :=
  List.filter_append (l₁ := [o]) outs

@[simp] theorem chunkClocks_nil : chunkClocks [] = [] := rfl

@[simp] theorem chunkClocks_cons (c : Nat × List Sym9) (cs : List (Nat × List Sym9)) :
    chunkClocks (c :: cs) = List.replicate c.1 (.clock false none none) ++ symbolClocks c.2 ++ chunkClocks cs :=
  rfl

/-- A decoded symbol is a FEED row. -/
theorem partOf_decodeSymbol {st : Ctl} {cur : Cursor} {sym : Sym9} {i : Instr} (h : decodeSymbol st cur sym = .ok i) :
    partOf i = .asm := by
  simp only [decodeSymbol] at h
  cases hx : symbolOf sym with
  | reset => rw [hx] at h; cases h; rfl
  | byte b =>
    rw [hx] at h
    cases st <;> simp only [decodeByteOrMarker] at h <;> split_ifs at h <;> cases h <;> rfl

end Sys2Proof.Machine
end

