-- ==== Sys2Proof/Tests/Slice0.lean ====
section
/-! SUPPORT. The model's own tests. Expected values are those of spec/95_test_vectors.md (the row is named), of the encodings
of 30_encoding.md, or worked out by hand. The theorems named `witness_` show that the hypotheses of a statement can hold. -/

namespace Sys2Proof.Machine.Tests

/-! ### Helpers -/

/-- A state with the accumulated payload `acc`. -/
def holding (st : Ctl) (acc : List Byte) : State :=
  { State.reset with st := st, cur := BitVec.ofNat 6 acc.length, buf := acc.mapIdx fun i b => (i, b) }

/-- The same, with one stimulus presented. -/
def given (st : Ctl) (acc : List Byte) (x : Stim) : State := { holding st acc with ins := [x] }

/-- A clock with a symbol. -/
def onSymbol (sym : Sym9) : Stim := .clock false (some sym) none

/-- The next state, if there is one. -/
def nextOf : Host.Outcome State Fault Refusal → Option State
  | .next t => some t
  | .fault _ => none
  | .refused _ => none

/-- The abstract state and the assembler's outputs after one step on a symbol: a row of 95_test_vectors.md section 2.1. -/
def row (st : Ctl) (acc : List Byte) (sym : Sym9) : Option (Option Abs × AsmOut) :=
  (nextOf (step (given st acc (onSymbol sym)))).map fun t => (t.abs, t.asm)

/-- `"Thi"`. -/
def thi : List Byte := [0x54, 0x68, 0x69]

/-- `"a" xN`. -/
def as (n : Nat) : List Byte := List.replicate n 0x61

/-- The value a pure operation puts out. -/
def valueOf (i : Instr) : Option PureValue := (nextOf (exec i State.reset)).bind State.val

/-- The interpreter's outputs after a row. -/
def intOf (i : Instr) : Option IntOut := (nextOf (exec i State.reset)).map State.int

/-- The command unit's outputs after a row. -/
def cmdOf (i : Instr) : Option CmdOut := (nextOf (exec i State.reset)).map State.cmd

/-! ### Well-formedness: each check refuses an ill-formed term -/

theorem test_wf_data_cr : (Instr.feedWsData 0x0D).wellFormed = false := by decide
theorem test_wf_overrun_cr : (Instr.feedWsOverrun 0x0D).wellFormed = false := by decide
theorem test_wf_other_lf : (Instr.feedWeOther 0x0A).wellFormed = false := by decide
theorem test_wf_short_four : (Instr.intAppShort [0x30, 0x33, 0x45, 0x38]).wellFormed = false := by decide
theorem test_wf_app_other_sub : (Instr.intAppOther [0x35, 0x34]).wellFormed = false := by decide
theorem test_wf_unknown_known : (Instr.intUnknown 0x54 []).wellFormed = false ∧ (Instr.intUnknown 0x41 []).wellFormed = false := by
  decide
theorem test_wf_upper_zero : (Instr.hexvalUpper 0).wellFormed = false ∧ (Instr.hexvalUpper 7).wellFormed = false := by decide
theorem test_wf_lower_zero : (Instr.hexvalLower 0).wellFormed = false ∧ (Instr.hexvalLower 7).wellFormed = false := by decide
theorem test_wf_other_digit : (Instr.hexvalOther 0x30).wellFormed = false ∧ (Instr.hexvalOther 0x66).wellFormed = false := by
  decide

/-- R36: a row is not selected in another state, or with another cursor. -/
theorem test_selected : (Instr.feedWsCr).selectedIn .we 0 = false ∧ (Instr.feedWsData 0x41).selectedIn .ws 40 = false ∧
    (Instr.feedWsOverrun 0x41).selectedIn .ws 39 = false ∧ (Instr.feedWeLf).selectedIn .ws 3 = false := by decide

/-! ### Parameters -/

/-- 92 D5: the least width whose range reaches above CAP. -/
theorem test_curw : 2 ^ Config.CURW > Config.CAP ∧ ¬ 2 ^ (Config.CURW - 1) > Config.CAP := by decide

/-- 92 D13: the range of R74 needs 19 bits. -/
theorem test_t10w : (200653 : Int) < 2 ^ (Config.T10W - 1) ∧ ¬ (200653 : Int) < 2 ^ (Config.T10W - 2) := by decide

/-! ### Decoding: words written out from the encodings of 30_encoding.md -/

/-- 1_xxxxxxxx, the byte field ignored (A18, A19). -/
theorem test_dec_reset : decodeSymbol .ws 3 0b1_11111111 = .ok .feedReset ∧ decodeSymbol .we 3 0b1_00001101 = .ok .feedReset := by
  decide
/-- 0_00001101, before the capacity test (A8). -/
theorem test_dec_cr : decodeSymbol .ws 40 0b0_00001101 = .ok .feedWsCr := by decide
/-- 0_bbbbbbbb; the line feed is data in `WS` (A4). -/
theorem test_dec_data : decodeSymbol .ws 39 0b0_01100010 = .ok (.feedWsData 0x62) ∧
    decodeSymbol .ws 1 0b0_00001010 = .ok (.feedWsData 0x0A) := by decide
/-- A6, A7. -/
theorem test_dec_overrun : decodeSymbol .ws 40 0b0_01100010 = .ok (.feedWsOverrun 0x62) ∧
    decodeSymbol .ws 40 0b0_00001010 = .ok (.feedWsOverrun 0x0A) := by decide
/-- 0_00001010 (A11). -/
theorem test_dec_lf : decodeSymbol .we 3 0b0_00001010 = .ok .feedWeLf := by decide
/-- A15: a carriage return in `WE` is another byte. -/
theorem test_dec_other : decodeSymbol .we 3 0b0_00001101 = .ok (.feedWeOther 0x0D) := by decide
/-- R56: no state selects FEED.BADSTATE. -/
theorem test_dec_badstate : (Instr.feedBadState 0x41).selectedIn .ws 0 = false ∧ (Instr.feedBadState 0x41).selectedIn .we 0 = false := by
  decide
/-- I1. -/
theorem test_dec_empty : decodeFrame [] = .intEmpty := by decide
/-- I4: sub-types exist only under tag `'A'`. -/
theorem test_dec_trace : decodeFrame [0x54, 0x35, 0x34, 0x30, 0x33, 0x45, 0x38] =
    .intTrace [0x35, 0x34, 0x30, 0x33, 0x45, 0x38] := by decide
/-- I12. -/
theorem test_dec_temp : decodeFrame [0x41, 0x35, 0x34, 0x30, 0x33, 0x45, 0x38, 0x78, 0x79, 0x7A] =
    .intAppTemp 0x30 0x33 0x45 0x38 [0x78, 0x79, 0x7A] := by decide
/-- I7, I10. -/
theorem test_dec_short : decodeFrame [0x41, 0x35, 0x34] = .intAppShort [] ∧
    decodeFrame [0x41, 0x35, 0x34, 0x30, 0x33, 0x45] = .intAppShort [0x30, 0x33, 0x45] := by decide
/-- I5, I6, I15. -/
theorem test_dec_app_other : decodeFrame [0x41] = .intAppOther [] ∧ decodeFrame [0x41, 0x35] = .intAppOther [0x35] ∧
    decodeFrame [0x41, 0x42, 0x35, 0x34] = .intAppOther [0x42, 0x35, 0x34] := by decide
/-- I18: tags are case-sensitive. -/
theorem test_dec_unknown : decodeFrame [0x61, 0x35, 0x34] = .intUnknown 0x61 [0x35, 0x34] := by decide
/-- 00110ddd. -/
theorem test_dec_dec_lo : decodeHexByte 0b00110_111 = .hexvalDecLo 7 := by decide
/-- 0011100d. -/
theorem test_dec_dec_hi : decodeHexByte 0b0011100_1 = .hexvalDecHi 1 := by decide
/-- 01000ddd, d from 1 to 6. -/
theorem test_dec_upper : decodeHexByte 0b01000_110 = .hexvalUpper 6 := by decide
/-- 01100ddd, d from 1 to 6. -/
theorem test_dec_lower : decodeHexByte 0b01100_001 = .hexvalLower 1 := by decide
/-- The bytes beside the five patterns. -/
theorem test_dec_hex_other : decodeHexByte 0x2F = .hexvalOther 0x2F ∧ decodeHexByte 0x3A = .hexvalOther 0x3A ∧
    decodeHexByte 0x40 = .hexvalOther 0x40 ∧ decodeHexByte 0x47 = .hexvalOther 0x47 ∧
    decodeHexByte 0x60 = .hexvalOther 0x60 ∧ decodeHexByte 0x67 = .hexvalOther 0x67 := by decide
/-- The first byte is high. -/
theorem test_dec_pair : decodePure (.pair 0x3033) = .hexpair 0x30 0x33 := by decide
/-- The byte of offset 3 is highest. -/
theorem test_dec_quad : decodePure (.quad 0x30334538) = .magnitude 0x30 0x33 0x45 0x38 := by decide
theorem test_dec_mag : decodePure (.mag 0x03E8) = .temp10 0x03E8 := by decide
theorem test_dec_tenths : decodePure (.tenths 0x00A09) = .render 0x00A09 := by decide
/-- The four selectors, and the four command frames `"LR"`, `"LG"`, `"LB"`, `"L0"`. -/
theorem test_dec_led : decodeSelect 0b00 = .ledRed ∧ decodeSelect 0b01 = .ledGreen ∧ decodeSelect 0b10 = .ledBlue ∧
    decodeSelect 0b11 = .ledOff := by decide
theorem test_dec_command_frame : decodeCommandFrame 0x4C52 = .ok .ledRed ∧ decodeCommandFrame 0x4C47 = .ok .ledGreen ∧
    decodeCommandFrame 0x4C42 = .ok .ledBlue ∧ decodeCommandFrame 0x4C30 = .ok .ledOff ∧
    decodeCommandFrame 0x4C58 = .error .notACommandFrame := by decide
theorem test_dec_wire : decodeWire [0x4C, 0x52, 0x0D, 0x0A] = .ok (.serialize [0x4C, 0x52]) ∧
    decodeWire [0x0D, 0x0A] = .ok (.serialize []) ∧ decodeWire [0x4C, 0x0D] = .error .noTerminator := by decide

/-! ### Bare table words (log entry 7) -/

theorem test_word_symbols : decodeTableWord 16 0x100 = some .feedReset ∧ decodeTableWord 16 0x00D = some .feedWsCr ∧
    decodeTableWord 16 0x00A = some .feedWeLf ∧ decodeTableWord 16 0x000 = some (.feedWsData 0) := by decide
theorem test_word_frames : decodeTableWord 0 0 = some .intEmpty ∧ decodeTableWord 8 0x54 = some (.intTrace []) ∧
    decodeTableWord 8 0x41 = some (.intAppOther []) ∧ decodeTableWord 24 0x413534 = some (.intAppTemp 0 0 0 0 []) := by decide
theorem test_word_leds : decodeTableWord 16 0x4C52 = some .ledRed ∧ decodeTableWord 16 0x4C47 = some .ledGreen ∧
    decodeTableWord 16 0x4C42 = some .ledBlue ∧ decodeTableWord 16 0x4C30 = some .ledOff ∧
    decodeTableWord 16 0x0D0A = some (.serialize []) := by decide
theorem test_word_runs_lf : (nextOf (step (State.reset.withFetchWord 16 0x00A))).map State.asm = some ⟨some [], none⟩ := by decide
theorem test_word_runs_led : (nextOf (step (State.reset.withFetchWord 16 0x4C52))).map State.cmd =
    some ⟨some [0x4C, 0x52], some [0x4C, 0x52, 0x0D, 0x0A]⟩ := by decide

/-! ### FEED rows: 95 section 2.1 -/

/-- A20: the marker is tested first. -/
theorem test_reset_full : row .ws (as 40) 0x100 = some (some ⟨.ws, []⟩, ⟨none, some .protocolReset⟩) := by decide
/-- A17. -/
theorem test_reset_we : row .we thi 0x100 = some (some ⟨.ws, []⟩, ⟨none, some .protocolReset⟩) := by decide
/-- A8. -/
theorem test_cr_full : row .ws (as 40) 0x00D = some (some ⟨.we, as 40⟩, ⟨none, none⟩) := by decide
/-- A5: the last cell. -/
theorem test_data_last : row .ws (as 39) 0x062 = some (some ⟨.ws, as 39 ++ [0x62]⟩, ⟨none, none⟩) := by decide
/-- A4: the line feed in `WS` is data. -/
theorem test_data_lf : row .ws [0x41] 0x00A = some (some ⟨.ws, [0x41, 0x0A]⟩, ⟨none, none⟩) := by decide
/-- A6. -/
theorem test_overrun : row .ws (as 40) 0x062 = some (some ⟨.ws, []⟩, ⟨none, some .bufferOverrun⟩) := by decide
/-- A13. -/
theorem test_lf_full : row .we (as 40) 0x00A = some (some ⟨.ws, []⟩, ⟨some (as 40), none⟩) := by decide
/-- A12, and Q1: the empty frame is answered by `EmptyFrame` in the same step. -/
theorem test_lf_empty : row .we [] 0x00A = some (some ⟨.ws, []⟩, ⟨some [], none⟩) ∧
    (nextOf (step (given .we [] (onSymbol 0x00A)))).map State.int = some ⟨none, none, some .emptyFrame⟩ := by decide
/-- A15: a carriage return in `WE` starts no new terminator. -/
theorem test_other_cr : row .we thi 0x00D = some (some ⟨.ws, []⟩, ⟨none, some .unexpectedTerminatorByte⟩) := by decide
/-- H3: hardware reset ignores the symbol and raises nothing. -/
theorem test_hard_reset : (nextOf (step (given .we thi (.clock true (some 0x00A) none)))).map (fun t => (t.abs, t.asm)) =
    some (some ⟨.ws, []⟩, ⟨none, none⟩) := by decide
/-- H1: the stutter. -/
theorem test_stutter : (nextOf (step (given .we thi (.clock false none none)))).map (fun t => (t.abs, t.asm)) =
    some (some ⟨.we, thi⟩, ⟨none, none⟩) := by decide
/-- R56's pseudocode. -/
theorem test_bad_state : (nextOf (exec (.feedBadState 0x41) (holding .we thi))).map (fun t => (t.abs, t.asm)) =
    some (some ⟨.ws, []⟩, ⟨none, some .invalidState⟩) := by decide

/-! ### INT rows: 95 section 3 -/

/-- I1. -/
theorem test_int_empty : intOf .intEmpty = some ⟨none, none, some .emptyFrame⟩ := by decide
/-- I2. -/
theorem test_int_trace : intOf (decodeFrame [0x54]) = some ⟨some (.trace []), none, none⟩ := by decide
/-- I12. -/
theorem test_int_temp : intOf (decodeFrame [0x41, 0x35, 0x34, 0x30, 0x33, 0x45, 0x38, 0x78, 0x79, 0x7A]) =
    some ⟨some (.app [0x35, 0x34, 0x30, 0x33, 0x45, 0x38, 0x78, 0x79, 0x7A]), some 2569, none⟩ := by decide +kernel
/-- I10. -/
theorem test_int_short : intOf (decodeFrame [0x41, 0x35, 0x34, 0x30, 0x33, 0x45]) =
    some ⟨some (.app [0x35, 0x34, 0x30, 0x33, 0x45]), none, some .temperatureFrameTooShort⟩ := by decide
/-- I16: the signature is tested at offsets 1 and 2 only. -/
theorem test_int_other : intOf (decodeFrame [0x41, 0x34, 0x35, 0x34, 0x30, 0x33, 0x45, 0x38]) =
    some ⟨some (.app [0x34, 0x35, 0x34, 0x30, 0x33, 0x45, 0x38]), none, some .unrecognizedFrame⟩ := by decide
/-- I21: a command frame is not understood. -/
theorem test_int_unknown : intOf (decodeFrame [0x4C, 0x52]) = some ⟨none, none, some .unrecognizedFrameType⟩ := by decide

/-! ### Thermometer rows: 95 section 4 -/

theorem test_hex_dec_lo : valueOf (.hexvalDecLo 7) = some (.nibble 7) := by decide
theorem test_hex_dec_hi : valueOf (.hexvalDecHi 1) = some (.nibble 9) := by decide
theorem test_hex_upper : valueOf (.hexvalUpper 1) = some (.nibble 10) := by decide
theorem test_hex_lower : valueOf (.hexvalLower 6) = some (.nibble 15) := by decide
theorem test_hex_other : valueOf (.hexvalOther 0x47) = some (.nibble 0) := by decide
/-- 4.1, both sides of every range. -/
theorem test_hexval : (([0x2F, 0x30, 0x39, 0x3A, 0x40, 0x41, 0x46, 0x47, 0x60, 0x61, 0x66, 0x67, 0xFF] : List Byte).map fun b =>
    (hexval b).toNat) = [0, 0, 9, 0, 0, 10, 15, 0, 0, 10, 15, 0, 0] := by decide
/-- S4: `"E8"` is 232. -/
theorem test_pair : valueOf (.hexpair 0x45 0x38) = some (.byte 232) := by decide
/-- 4.3: a byte that is no digit counts 0 in its place: `"F?"`. -/
theorem test_pair_other : valueOf (.hexpair 0x46 0x3F) = some (.byte 240) := by decide
/-- S5: `"03E8"` is 1000. -/
theorem test_magnitude : valueOf (.magnitude 0x30 0x33 0x45 0x38) = some (.magnitude 1000) := by decide +kernel
/-- S5: 1000 gives 2569 = 0x00A09. -/
theorem test_temp10 : valueOf (.temp10 1000) = some (.tenths 0x00A09) := by decide +kernel
/-- 4.2, 4.4: the ends of the range, the sign change, and values where truncation would differ. -/
theorem test_temp10_vectors : (([0, 1, 160, 162, 163, 164, 240, 1001, 1023, 2560, 32768, 65535] : List Mag).map fun m =>
    (temp10 m).toInt) = [-500, -497, -9, -3, 0, 3, 237, 2572, 2640, 7358, 100078, 200653] := by decide
/-- 4.5: `"256.9"`. -/
theorem test_render : valueOf (.render 0x00A09) = some (.text [0x32, 0x35, 0x36, 0x2E, 0x39]) := by decide
/-- 4.5: `"-50.0"`, `"-0.3"`, `"0.0"`, `"20065.3"`. -/
theorem test_render_vectors : (([0x7FE0C, 0x7FFFD, 0x00000, 0x30FCD] : List T10).map render) =
    [[0x2D, 0x35, 0x30, 0x2E, 0x30], [0x2D, 0x30, 0x2E, 0x33], [0x30, 0x2E, 0x30],
     [0x32, 0x30, 0x30, 0x36, 0x35, 0x2E, 0x33]] := by decide

/-! ### LED rows and SERIALIZE: 95 section 5 -/

/-- S8. -/
theorem test_led_red : cmdOf .ledRed = some ⟨some [0x4C, 0x52], some [0x4C, 0x52, 0x0D, 0x0A]⟩ := by decide
theorem test_led_green : cmdOf .ledGreen = some ⟨some [0x4C, 0x47], some [0x4C, 0x47, 0x0D, 0x0A]⟩ := by decide
theorem test_led_blue : cmdOf .ledBlue = some ⟨some [0x4C, 0x42], some [0x4C, 0x42, 0x0D, 0x0A]⟩ := by decide
theorem test_led_off : cmdOf .ledOff = some ⟨some [0x4C, 0x30], some [0x4C, 0x30, 0x0D, 0x0A]⟩ := by decide
theorem test_serialize : valueOf (.serialize [0x4C, 0x52]) = some (.wire [0x4C, 0x52, 0x0D, 0x0A]) := by decide

/-! ### Witnesses: the hypotheses of each statement hold together somewhere -/

/-- `(WE, "a" x40)` meets the invariants. -/
theorem inv_full_we : (holding .we (as 40)).Inv :=
  ⟨by decide, by decide, ⟨as 40, by decide, by decide⟩, fun f h => by cases h⟩

/-- `(WE, [])` meets the invariants. -/
theorem inv_empty_we : (holding .we []).Inv :=
  ⟨by decide, by decide, ⟨[], by decide, by decide⟩, fun f h => by cases h⟩

theorem inv_reset : State.reset.Inv :=
  ⟨by decide, by decide, ⟨[], by decide, by decide⟩, fun f h => by cases h⟩

theorem inv_presented {s : State} (h : s.Inv) (xs : List Stim) : { s with ins := xs }.Inv :=
  ⟨h.cur_le, h.buf_wf, h.payload, h.frame⟩

theorem witness_StepKeepsInvariants : ∃ s t : State, s.Inv ∧ step s = .next t ∧ t.asm.frame = some (as 40) :=
  ⟨given .we (as 40) (onSymbol 0x00A), _, inv_presented inv_full_we _, rfl, by decide⟩

theorem witness_StepNeverStops : ∃ s : State, s.Inv ∧ s.stim = onSymbol 0x00A :=
  ⟨given .we (as 40) (onSymbol 0x00A), inv_presented inv_full_we _, rfl⟩

/-- A step that puts out a frame, an echo and a temperature. -/
theorem witness_StepOutputsAreLegal : ∃ s t : State, step s = .next t ∧ t.int.temp = some 2569 :=
  ⟨given .we [0x41, 0x35, 0x34, 0x30, 0x33, 0x45, 0x38] (onSymbol 0x00A), _, rfl, by decide +kernel⟩

theorem witness_HardwareResetStep :
    (given .we thi (.clock true (some 0x00A) (some 2))).ins = .clock true (some 0x00A) (some 2) :: [] := rfl

theorem witness_IdleClockStutters : (holding .we thi).ins = [] ∧
    ∃ rest, (given .we thi (.clock false none none)).ins = .clock false none none :: rest := ⟨rfl, [], rfl⟩

theorem witness_StepRunsDecodedInstruction : ∃ (s : State) (rest : List Stim), s.ins = stimOf (.symbol 0x062) :: rest ∧
    decode s.st s.cur (.symbol 0x062) = .ok (.feedWsOverrun 0x62) :=
  ⟨given .ws (as 40) (onSymbol 0x062), [], rfl, by decide⟩

theorem witness_StepRunsSymbolAndCommand : ∃ (s t : State) (rest : List Stim),
    s.ins = .clock false (some 0x041) (some 3) :: rest ∧ decodeSymbol s.st s.cur 0x041 = .ok (.feedWsData 0x41) ∧
    exec (.feedWsData 0x41)
      { s with asm := ⟨none, none⟩, int := ⟨none, none, none⟩, cmd := ⟨none, none⟩, val := none, ins := rest } = .next t :=
  ⟨given .ws [] (.clock false (some 0x041) (some 3)), _, [], rfl, by decide, rfl⟩

theorem witness_StepRefinesAbstractFeed : ∃ (s : State) (rest : List Stim), s.Inv ∧ s.abs = some ⟨.we, as 40⟩ ∧
    s.ins = .clock false (some 0x00A) none :: rest :=
  ⟨given .we (as 40) (onSymbol 0x00A), [], inv_presented inv_full_we _, by decide, rfl⟩

/-- Two states with the same payload and different stale cells. -/
theorem witness_StaleCellsAreUnobservable :
    State.SameVisible { State.reset with buf := [(0, 0x41), (39, 0x42)] } State.reset ∧
    { State.reset with buf := [(0, 0x41), (39, 0x42)] } ≠ State.reset :=
  ⟨⟨rfl, rfl, rfl, rfl, rfl, rfl, rfl, rfl⟩, by decide⟩

theorem witness_PureOperationsHoldNoState : (given .we thi (.alone (.frame [0x41]))).ins = .alone (.frame [0x41]) :: [] ∧
    (given .ws (as 40) (.alone (.frame [0x41]))).ins = .alone (.frame [0x41]) :: [] := ⟨rfl, rfl⟩

/-- Each way the cursor can go, from 39 up to 40 among them. -/
theorem witness_CursorNeverWraps :
    (nextOf (step (given .ws (as 40) (onSymbol 0x00D)))).map State.cur = some 40 ∧
    (nextOf (step (given .ws (as 40) (onSymbol 0x062)))).map State.cur = some 0 ∧
    (nextOf (step (given .ws (as 39) (onSymbol 0x062)))).map State.cur = some 40 := by decide

theorem witness_WaitingForEndLastsOneSymbol :
    (nextOf (step (given .we thi (.clock false none (some 1))))).map State.st = some .we ∧
    (nextOf (step (given .ws thi (onSymbol 0x00D)))).map State.st = some .we := by decide

theorem witness_SymbolTableSelectsOneRow : (40 : Cursor).toNat ≤ Config.CAP := by decide

theorem witness_CommandFormats : ∃ w : BitVec 16, w ≠ 0x4C52 ∧ w ≠ 0x4C47 ∧ w ≠ 0x4C42 ∧ w ≠ 0x4C30 := ⟨0x4C31, by decide⟩

theorem witness_DecodeOfEncode : (Instr.feedWsData 0xFF).wellFormed = true ∧ (Instr.feedWsData 0xFF).selectedIn .ws 39 = true ∧
    (Instr.feedWsOverrun 0xFF).wellFormed = true ∧ (Instr.feedWsOverrun 0xFF).selectedIn .ws 40 = true := by decide

/-- A request that encodes back to itself, and a marker whose byte field is ignored. -/
theorem witness_EncodeOfDecode : decode .ws 40 (.symbol 0x062) = .ok (.feedWsOverrun 0x62) ∧
    decode .ws 40 (.symbol 0x1FF) = .ok .feedReset := by decide

theorem witness_FeedCarriageReturnResult : (holding .ws (as 40)).st = .ws := rfl

theorem witness_FeedDataResult : (holding .ws (as 39)).st = .ws ∧ (0x0A : Byte) ≠ 0x0D ∧
    (holding .ws (as 39)).cur.toNat < Config.CAP := by decide

theorem witness_FeedOverrunResult : (holding .ws (as 40)).st = .ws ∧ (0x0A : Byte) ≠ 0x0D ∧
    (holding .ws (as 40)).cur.toNat = Config.CAP := by decide

/-- The full and the empty frame. -/
theorem witness_FeedLineFeedResult : ((holding .we (as 40)).Inv ∧ (holding .we (as 40)).st = .we) ∧
    (holding .we []).Inv ∧ (holding .we []).st = .we := ⟨⟨inv_full_we, rfl⟩, inv_empty_we, rfl⟩

theorem witness_FeedBrokenTerminatorResult : (holding .we thi).st = .we ∧ (0x0D : Byte) ≠ 0x0A := by decide

theorem witness_RowNotSelectedIsRefused :
    ((Instr.hexvalUpper 0).wellFormed && (Instr.hexvalUpper 0).selectedIn .ws 0) = false ∧
    (∀ b, Instr.hexvalUpper 0 ≠ .feedBadState b) ∧
    ((Instr.feedWeLf).wellFormed && (Instr.feedWeLf).selectedIn .ws 0) = false :=
  ⟨by decide, (fun b h => by cases h), by decide⟩

/-- Cursors 1 and 40 with no cell written, and cursor 41 in either state. -/
theorem witness_StopsInUnreachableStates :
    (∀ c ∈ ([1, 40] : List Cursor), c.toNat ≤ Config.CAP ∧ { State.reset with st := .we, cur := c }.payload = none) ∧
    Config.CAP < { State.reset with st := .we, cur := 41 }.cur.toNat ∧
    ∃ (s : State) (rest : List Stim), s.st = .ws ∧ Config.CAP < s.cur.toNat ∧ (0x41 : Byte) ≠ 0x0D ∧
      s.ins = .clock false (some (0#1 ++ (0x41 : Byte) : BitVec 9)) none :: rest :=
  ⟨by decide, by decide, { given .ws [] (onSymbol 0x041) with cur := 41 }, [], rfl, by decide, by decide, rfl⟩

/-- A row of each part answers. -/
theorem witness_EachRowsFrame : ∀ i ∈ [Instr.feedWsData 0x41, .intEmpty, .ledRed, .hexpair 0x30 0x30],
    (nextOf (exec i State.reset)).isSome = true := by decide

theorem witness_StoreWritesOneCell : 39 < Config.CAP ∧ Config.CAP ≤ 40 ∧ (holding .ws (as 39)).buf.wf = true := by decide

theorem witness_ResetMarkerFromAnyState : ∃ (s : State) (rest : List Stim),
    s.ins = .clock false (some (1#1 ++ (0x0D : Byte) : BitVec 9)) (some 0) :: rest :=
  ⟨given .we thi (.clock false (some 0x10D) (some 0)), [], rfl⟩

/-- S3: `"AB54<CR><LF>"` in three chunks with gaps. -/
def splitLine : List (Nat × List Sym9) := [(0, [0x041, 0x042]), (2, [0x035, 0x034, 0x00D]), (1, [0x00A])]

theorem witness_ChunksDoNotMatter : State.reset.Inv ∧ (chunkClocks splitLine).length = 9 ∧
    (splitLine.flatMap Prod.snd).length = 6 := ⟨inv_reset, by decide, by decide⟩

/-- S3: what the split line puts out. -/
theorem test_split_line : ((runOuts 9 { State.reset with ins := chunkClocks splitLine }).map fun r => (r.1.abs, heard r.2)) =
    some (some ⟨.ws, []⟩, [(⟨some [0x41, 0x42, 0x35, 0x34], none⟩,
      ⟨some (.app [0x42, 0x35, 0x34]), none, some .unrecognizedFrame⟩)]) := by decide +kernel

/-- After an overrun the assembler is in `WS`; a line of 40 bytes. -/
theorem witness_NoResidueAfterTerminator : ((Abs.init).feedAll (symbolsOf (as 41))).1.st = .ws ∧ Config.CR ∉ as 40 ∧
    (as 40).length ≤ Config.CAP := by decide

theorem witness_OverlongLineOverruns : Config.CR ∉ as 41 := by decide

theorem serialized_presented (f : Frame) : ∃ (s : State) (rest : List Stim), s.Inv ∧ s.st = .ws ∧ s.cur = 0 ∧
    s.ins = clocksOf (serialize f) ++ rest :=
  ⟨_, [], inv_presented inv_reset (clocksOf (serialize f) ++ []), rfl, rfl, rfl⟩

theorem witness_SerializedFrameComesBack : (∃ (s : State) (rest : List Stim), s.Inv ∧ s.st = .ws ∧ s.cur = 0 ∧
    s.ins = clocksOf (serialize (as 40)) ++ rest) ∧ (as 40).length ≤ Config.CAP ∧ Config.CR ∉ as 40 :=
  ⟨serialized_presented (as 40), by decide, by decide⟩

theorem witness_ShortTemperatureFrameResult : ([0x30, 0x33, 0x45] : List Byte).length ≤ 3 ∧ ([] : List Byte).length ≤ 3 := by
  decide

/-- An absent second byte, no byte at all, and a first byte that differs. -/
theorem witness_OtherApplicationFrameResult : ∀ text ∈ ([[0x35], [], [0x42, 0x34]] : List (List Byte)),
    ¬ (text[0]? = some 0x35 ∧ text[1]? = some 0x34) := by decide

theorem witness_UnknownTagResult : (0x55 : Byte) ≠ 0x54 ∧ (0x55 : Byte) ≠ 0x41 := by decide

theorem witness_EventsInOrder : (interpret [0x54]).echo = some (.trace []) ∧ (interpret [0x41]).echo = some (.app []) := by decide

/-- The ends of every range of R70. -/
theorem witness_HexDigitValue : (∀ b ∈ ([0x30, 0x39] : List Byte), 0x30 ≤ b.toNat ∧ b.toNat ≤ 0x39) ∧
    (∀ b ∈ ([0x41, 0x46] : List Byte), 0x41 ≤ b.toNat ∧ b.toNat ≤ 0x46) ∧
    (∀ b ∈ ([0x61, 0x66] : List Byte), 0x61 ≤ b.toNat ∧ b.toNat ≤ 0x66) ∧
    ∀ b ∈ ([0x2F, 0x3A, 0x40, 0x47, 0x60, 0x67] : List Byte),
      b.toNat < 0x30 ∨ (0x39 < b.toNat ∧ b.toNat < 0x41) ∨ (0x46 < b.toNat ∧ b.toNat < 0x61) ∨ 0x66 < b.toNat := by decide

theorem witness_HexDigitRowsResult : (∀ d ∈ ([1, 6] : List (BitVec 3)), 1 ≤ d.toNat ∧ d.toNat ≤ 6) ∧
    isHexDigit 0x2F = false ∧ isHexDigit 0x67 = false := by decide

theorem witness_TemperatureRises : (162 : Mag).toNat < (163 : Mag).toNat ∧ (65535 : Mag).toNat = (65534 : Mag).toNat + 1 :=
  ⟨by decide, rfl⟩

/-- The ends of the range. -/
theorem witness_RenderResult : ∃ t u : T10, t.toInt = -500 ∧ u.toInt = 200653 ∧
    (-500 ≤ t.toInt ∧ t.toInt ≤ 200653) ∧ -500 ≤ u.toInt ∧ u.toInt ≤ 200653 := by
  have ht : (0x7FE0C : T10).toInt = -500 := by decide
  have hu : (0x30FCD : T10).toInt = 200653 := by decide
  exact ⟨_, _, ht, hu, by omega, by omega⟩

/-- The operands next to the range, on either side. -/
theorem witness_RenderOutsideRange : ∃ t u : T10, (t.toInt < -500 ∨ 200653 < t.toInt) ∧ (u.toInt < -500 ∨ 200653 < u.toInt) := by
  have ht : (0x7FE0B : T10).toInt = -501 := by decide
  have hu : (0x30FCE : T10).toInt = 200654 := by decide
  exact ⟨0x7FE0B, 0x30FCE, by omega, by omega⟩

theorem witness_HexRoundTrip : isHexDigit 0x61 = true ∧ isHexDigit 0x39 = true ∧ isHexDigit 0x46 = true := by decide

/-- A frame of 40 bytes, an echo of 39, a temperature, four transmitted bytes. -/
theorem witness_PortsShowOutputs : ∃ (s : State) (f : Frame) (x : Echo) (t : T10),
    s.asm.frame = some f ∧ f.length ≤ Config.CAP ∧ s.int.echo = some x ∧ x.text.length ≤ Config.CAP - 1 ∧
    s.int.temp = some t ∧ s.cmd.tx = some [0x4C, 0x52, 0x0D, 0x0A] :=
  ⟨{ State.reset with asm := ⟨some (as 40), none⟩, int := ⟨some (.app (as 39)), some 0, none⟩,
                      cmd := ⟨some [0x4C, 0x52], some [0x4C, 0x52, 0x0D, 0x0A]⟩ },
    as 40, .app (as 39), 0, rfl, by decide, rfl, by decide, rfl, rfl⟩

end Sys2Proof.Machine.Tests
end

section
/-! What a step does with the stimulus it takes (00_scope.md R5), and the statements about one clock or one request. -/

namespace Sys2Proof.Machine

theorem State.stim_of_ins_nil {s : State} (h : s.ins = []) : s.stim = .clock false none none := by
  rw [State.stim, h, List.headD_nil]

theorem State.stim_of_ins_cons {s : State} {x : Stim} {rest : List Stim} (h : s.ins = x :: rest) : s.stim = x := by
  rw [State.stim, h, List.headD_cons]

/-- With a stimulus presented, the step runs it in the state that has it taken and the outputs cleared. -/
theorem step_of_ins_cons {s : State} {x : Stim} {rest : List Stim} (h : s.ins = x :: rest) :
    step s = runStim x { s with asm := AsmOut.none, int := IntOut.none, cmd := CmdOut.none, val := none, ins := rest } := by
  rw [step, State.stim_of_ins_cons h, State.begin, h, List.tail_cons]

/-- A clock with no input active runs no row. -/
@[simp] theorem runStim_idle (s : State) : runStim (.clock false none none) s = .next s := rfl

/-- A step on a clock with no input active only takes the stimulus and clears the outputs. -/
theorem step_of_stim_idle {s : State} (h : s.stim = .clock false none none) : step s = .next s.begin := by
  rw [step, h, runStim_idle]

@[simp] theorem runRequests_singleton (r : Request) (s : State) : runRequests [r] s = runRequest r s := by
  rw [runRequests]
  cases runRequest r s <;> rfl

theorem runRequest_of_decode {r : Request} {i : Instr} {s : State} (h : decode s.st s.cur r = .ok i) :
    runRequest r s = exec i s := by
  rw [runRequest, h]

@[simp] theorem stimIsReset_stimOf (r : Request) : stimIsReset (stimOf r) = false := by
  cases r <;> rfl

@[simp] theorem stimRequests_stimOf (r : Request) : stimRequests (stimOf r) = [r] := by
  cases r <;> rfl

/-- The stimulus that presents one request runs that request. -/
@[simp] theorem runStim_stimOf (r : Request) (s : State) : runStim (stimOf r) s = runRequest r s := by
  simp [runStim]

/-- Settles O7: the empty list and the clock without inputs are the same stimulus, and it runs no row. -/
theorem idleClockStutters : Obligations.IdleClockStutters := by
  intro s h
  have hIdle : s.stim = .clock false none none := by
    rcases h with hNil | ⟨rest, hCons⟩
    · exact State.stim_of_ins_nil hNil
    · exact State.stim_of_ins_cons hCons
  exact step_of_stim_idle hIdle

/-- Settles O8: taking the stimulus changes neither `st` nor `cur`, so the request still decodes to the same instruction. -/
theorem stepRunsDecodedInstruction : Obligations.StepRunsDecodedInstruction := by
  intro s r i rest hIns hDecode
  rw [step_of_ins_cons hIns, runStim_stimOf]
  exact runRequest_of_decode hDecode

end Sys2Proof.Machine
end

section
/-! What each row of the table does, said once for every state: a row's outcome is a guard on the row and one shared effect. -/

namespace Sys2Proof.Machine

/-- The meaning of a row as a guard and an effect that do not depend on the state they are applied to, but for the guard's look at
`st` and `cur` and for the two rows that look at the buffer. -/
inductive RowMeaning (i : Instr) : Prop where
  | interprets (o : IntOut) (hPart : partOf i = .int)
      (hExec : ∀ s, exec i s = guardRow i.wellFormed i.mnemonic (.next (s.putInt o)))
  | computes (v : PureValue) (hPart : partOf i = .fn)
      (hExec : ∀ s, exec i s = guardRow i.wellFormed i.mnemonic (.next (s.putVal v)))
  | sends (sel : Selector) (hPart : partOf i = .cmd) (hExec : ∀ s, exec i s = .next (s.send sel))
  | resyncs (x : AsmDiag) (selected : Ctl → Cursor → Bool) (hPart : partOf i = .asm)
      (hExec : ∀ s, exec i s = guardRow (selected s.st s.cur) i.mnemonic (.next (s.raise x)))
  | awaits (hRow : i = .feedWsCr)
  | stores (b : Byte) (hRow : i = .feedWsData b)
  | emits (hRow : i = .feedWeLf)

theorem rowMeaning (i : Instr) : RowMeaning i := by
  cases i with
  | feedReset => exact .resyncs _ (fun _ _ => true) rfl fun _ => rfl
  | feedWsCr => exact .awaits rfl
  | feedWsData b => exact .stores b rfl
  | feedWsOverrun b =>
    exact .resyncs _ (fun st cur => st == .ws && b != Config.CR && cur.toNat == Config.CAP) rfl fun _ => rfl
  | feedWeLf => exact .emits rfl
  | feedWeOther b => exact .resyncs _ (fun st _ => st == .we && b != Config.LF) rfl fun _ => rfl
  | feedBadState _ => exact .resyncs _ (fun _ _ => true) rfl fun _ => rfl
  | intEmpty | intTrace _ | intAppTemp _ _ _ _ _ | intAppShort _ | intAppOther _ | intUnknown _ _ =>
    exact .interprets _ rfl fun _ => rfl
  | hexvalDecLo _ | hexvalDecHi _ | hexvalUpper _ | hexvalLower _ | hexvalOther _ | hexpair _ _ | magnitude _ _ _ _
  | temp10 _ | render _ | serialize _ => exact .computes _ rfl fun _ => rfl
  | ledRed | ledGreen | ledBlue | ledOff => exact .sends _ rfl fun _ => rfl

/-- Settles O32, row by row: each effect writes the fields of its own part, and the buffer only in FEED.WS.DATA. -/
theorem eachRowsFrame : Obligations.EachRowsFrame := by
  intro i s t h
  cases rowMeaning i with
  | interprets o hPart hExec =>
    obtain ⟨-, h⟩ := guardRow_eq_next (hExec s ▸ h)
    cases h
    simp [hPart]
  | computes v hPart hExec =>
    obtain ⟨-, h⟩ := guardRow_eq_next (hExec s ▸ h)
    cases h
    simp [hPart]
  | sends sel hPart hExec =>
    cases (hExec s).symm.trans h
    simp [hPart]
  | resyncs x _ hPart hExec =>
    obtain ⟨-, h⟩ := guardRow_eq_next (hExec s ▸ h)
    cases h
    simp [hPart]
  | awaits hRow =>
    subst hRow
    obtain ⟨-, h⟩ := guardRow_eq_next h
    cases h
    simp [partOf]
  | stores b hRow =>
    subst hRow
    obtain ⟨-, -, -, rfl⟩ := execFeedWsData_eq_next h
    simpa [partOf] using fun a ha => Memory.read_write_other s.buf b ha
  | emits hRow =>
    subst hRow
    obtain ⟨-, -, f, -, rfl⟩ := execFeedWeLf_eq_next h
    simp [partOf]

end Sys2Proof.Machine
end

section
/-! The state after hardware reset, and the invariants of 10_state.md R14. -/

namespace Sys2Proof.Machine

/-- Settles O1: every field of the state is given by `State.reset` itself. -/
theorem resetIsEmptyAssembler : Obligations.ResetIsEmptyAssembler :=
  ⟨rfl, rfl, rfl, rfl, rfl, rfl, rfl, rfl, Memory.read_nil⟩

/-- An empty payload meets (I-a) and (I-c) whatever the cells hold, so only the buffer's form and the emitted frame are left. -/
theorem State.Inv.of_cur_zero {s : State} (hCur : s.cur = 0) (hWf : s.buf.wf = true)
    (hFrame : ∀ f, s.asm.frame = some f → f.length ≤ Config.CAP ∧ Config.CR ∉ f) : s.Inv where
  cur_le := by simp [hCur]
  buf_wf := hWf
  payload := ⟨[], State.payload_of_cur_zero hCur, List.not_mem_nil⟩
  frame := hFrame

/-- The invariants speak of the cursor, the buffer and the emitted frame alone. -/
theorem State.Inv.of_buffer_eq {s t : State} (h : s.Inv) (hCur : t.cur = s.cur) (hBuf : t.buf = s.buf)
    (hFrame : t.asm.frame = none ∨ t.asm.frame = s.asm.frame) : t.Inv where
  cur_le := hCur ▸ h.cur_le
  buf_wf := hBuf ▸ h.buf_wf
  payload := by
    have hPayload : t.payload = s.payload := by rw [State.payload, State.payload, hCur, hBuf]
    exact hPayload ▸ h.payload
  frame := by
    rcases hFrame with hNone | hSame
    · simp [hNone]
    · exact hSame ▸ h.frame

/-- Settles O2: after reset the payload is empty, no cell is listed and no unit puts anything out. -/
theorem resetMeetsInvariants : Obligations.ResetMeetsInvariants :=
  ⟨.of_cur_zero rfl rfl (by simp), ⟨.inl rfl, .inl rfl, .inl rfl, by simp, by simp, rfl⟩⟩

/-- The four register effects of 40_assembler_feed.md R57 keep the invariants. -/
theorem FeedEffect.keeps_inv {s t : State} (h : FeedEffect s t) (hs : s.Inv) : t.Inv := by
  cases h with
  | raised x ht =>
    subst ht
    exact .of_cur_zero rfl hs.buf_wf (by simp)
  | awaited _ ht =>
    subst ht
    exact hs.of_buffer_eq rfl rfl (.inl rfl)
  | stored b _ hb hc ht =>
    obtain ⟨acc, hAcc, hNoCr⟩ := hs.payload
    have hGrown : t.payload = some (acc ++ [b]) := by rw [ht, State.payload_append s b _ _ hc, hAcc, Option.map_some]
    subst ht
    refine ⟨?_, Memory.wf_write b hs.buf_wf hc, ⟨acc ++ [b], hGrown, ?_⟩, by simp⟩
    · show (s.cur + 1).toNat ≤ Config.CAP
      exact Cursor.toNat_succ hc ▸ hc
    · simpa [hNoCr] using hb.symm
  | emitted f _ hc hf ht =>
    obtain ⟨acc, hAcc, hNoCr⟩ := hs.payload
    obtain rfl : acc = f := Option.some.inj (hAcc.symm.trans hf)
    subst ht
    refine .of_cur_zero rfl hs.buf_wf fun g hg => ?_
    obtain rfl : acc = g := Option.some.inj hg
    exact ⟨(State.payload_length hf).trans_le hc, hNoCr⟩

/-- Every instruction keeps the invariants: outputs alone touch none of their fields. -/
theorem exec_keeps_inv {i : Instr} {s t : State} (h : exec i s = .next t) (hs : s.Inv) : t.Inv := by
  cases exec_effect h with
  | feed hFeed => exact hFeed.keeps_inv hs
  | interpreted o ht => exact ht ▸ hs.of_buffer_eq rfl rfl (.inr rfl)
  | valued v ht => exact ht ▸ hs.of_buffer_eq rfl rfl (.inr rfl)
  | sent sel ht => exact ht ▸ hs.of_buffer_eq rfl rfl (.inr rfl)

/-- Settles O3: taking the stimulus, hardware reset and every instruction keep the invariants. -/
theorem stepKeepsInvariants : Obligations.StepKeepsInvariants := fun _ _ hs h =>
  step_keeps (P := State.Inv) (fun _ hs => hs.of_buffer_eq rfl rfl (.inl rfl))
    (fun _ hs => .of_cur_zero rfl hs.buf_wf (by simp)) (fun _ _ _ => exec_keeps_inv) h hs

/-- The ways a cursor can go in one step (10_state.md R11, 40_assembler_feed.md R52). -/
def CursorMove (c c' : Cursor) : Prop := c' = c ∨ c' = 0 ∨ (c.toNat < Config.CAP ∧ c'.toNat = c.toNat + 1)

theorem exec_cursorMove {i : Instr} {s t : State} (h : exec i s = .next t) : CursorMove s.cur t.cur := by
  cases exec_effect h with
  | feed hFeed =>
    cases hFeed with
    | raised x ht => exact ht ▸ .inr (.inl rfl)
    | awaited _ ht => exact ht ▸ .inl rfl
    | stored b _ _ hc ht => exact ht ▸ .inr (.inr ⟨hc, Cursor.toNat_succ hc⟩)
    | emitted f _ _ _ ht => exact ht ▸ .inr (.inl rfl)
  | interpreted o ht => exact ht ▸ .inl rfl
  | valued v ht => exact ht ▸ .inl rfl
  | sent sel ht => exact ht ▸ .inl rfl

/-- Settles O14: a step runs at most one instruction that moves the cursor. -/
theorem cursorNeverWraps : Obligations.CursorNeverWraps := by
  intro s t h
  show CursorMove s.begin.cur t.cur
  cases step_cases h with
  | hardReset _ ht => exact ht ▸ .inr (.inl rfl)
  | idle _ ht => exact ht ▸ .inl rfl
  | symbol _ _ _ _ ht => exact exec_cursorMove ht
  | command _ _ ht => exact ht ▸ .inl rfl
  | both _ _ _ u _ _ hu ht =>
    subst ht
    exact exec_cursorMove (t := u) hu
  | alone _ _ ht => exact exec_cursorMove ht

end Sys2Proof.Machine
end

section
/-! What the decoder gives: rows that are selected, and for a pure operation alone a well-formed row of its own unit. -/

namespace Sys2Proof.Machine

theorem partOf_decodeTemp (digits : List Byte) : partOf (decodeTemp digits) = .int := by
  unfold decodeTemp
  split <;> rfl

/-- A decoded frame is an INT row (30_encoding.md R38). -/
theorem partOf_decodeFrame (f : Frame) : partOf (decodeFrame f) = .int := by
  cases f with
  | nil => rfl
  | cons tag text =>
    simp only [decodeFrame, decodeApp]
    split_ifs
    · rfl
    · exact partOf_decodeTemp _
    · rfl
    · rfl

/-- A decoded digit byte is a HEXVAL row (30_encoding.md R40). -/
theorem partOf_decodeHexByte (b : Byte) : partOf (decodeHexByte b) = .fn := by
  unfold decodeHexByte
  dsimp only
  split_ifs <;> rfl

/-- A pure operation evaluated alone is a row of the interpreter or of the pure functions (10_state.md R18). -/
theorem partOf_decodePure (r : PureRequest) : partOf (decodePure r) = .int ∨ partOf (decodePure r) = .fn := by
  cases r with
  | frame f => exact .inl (partOf_decodeFrame f)
  | hexByte b => exact .inr (partOf_decodeHexByte b)
  | pair _ | quad _ | mag _ | tenths _ | wire _ => exact .inr rfl

/-- Fewer than four digits are too short for a temperature (41_interpreter.md R64). -/
theorem wellFormed_decodeTemp (digits : List Byte) : (decodeTemp digits).wellFormed = true := by
  match digits with
  | [] | [_] | [_, _] | [_, _, _] => rfl
  | _ :: _ :: _ :: _ :: _ => rfl

theorem wellFormed_decodeFrame (f : Frame) : (decodeFrame f).wellFormed = true := by
  cases f with
  | nil => rfl
  | cons tag text =>
    simp only [decodeFrame, decodeApp]
    split_ifs with hTrace hApp hSub
    · rfl
    · exact wellFormed_decodeTemp _
    · simp [Instr.wellFormed, hSub]
    · simp [Instr.wellFormed, hTrace, hApp]

/-- The bit patterns of rule R40 and their exceptions, over all 256 bytes. -/
theorem wellFormed_decodeHexByte (b : Byte) : (decodeHexByte b).wellFormed = true := by
  revert b
  decide

theorem wellFormed_decodePure (r : PureRequest) : (decodePure r).wellFormed = true := by
  cases r with
  | frame f => exact wellFormed_decodeFrame f
  | hexByte b => exact wellFormed_decodeHexByte b
  | pair _ | quad _ | mag _ | tenths _ | wire _ => rfl

/-- A pure operation evaluated alone puts out interpreter outputs or a value, the same in every state (10_state.md R18). -/
theorem exec_decodePure (r : PureRequest) :
    (∃ o, ∀ s, exec (decodePure r) s = .next (s.putInt o)) ∨ ∃ v, ∀ s, exec (decodePure r) s = .next (s.putVal v) := by
  have hPart := partOf_decodePure r
  have hWf := wellFormed_decodePure r
  cases rowMeaning (decodePure r) with
  | interprets o _ hExec => exact .inl ⟨o, fun s => (hExec s).trans (guardRow_of _ _ _ hWf)⟩
  | computes v _ hExec => exact .inr ⟨v, fun s => (hExec s).trans (guardRow_of _ _ _ hWf)⟩
  | sends _ hCmd _ => simp [hCmd] at hPart
  | resyncs _ _ hAsm _ => simp [hAsm] at hPart
  | awaits hRow => simp [hRow, partOf] at hPart
  | stores _ hRow => simp [hRow, partOf] at hPart
  | emits hRow => simp [hRow, partOf] at hPart

/-- Settles O13: the outputs are those of the argument, put into a state that has its outputs cleared. -/
theorem pureOperationsHoldNoState : Obligations.PureOperationsHoldNoState := by
  intro s s' r rest rest' hIns hIns'
  have hStep := stepRunsDecodedInstruction s (.alone r) _ rest hIns rfl
  have hStep' := stepRunsDecodedInstruction s' (.alone r) _ rest' hIns' rfl
  rcases exec_decodePure r with ⟨o, hExec⟩ | ⟨v, hExec⟩
  · exact ⟨_, _, hStep.trans (hExec _), hStep'.trans (hExec _), rfl, rfl, rfl, rfl, rfl, rfl, rfl⟩
  · exact ⟨_, _, hStep.trans (hExec _), hStep'.trans (hExec _), rfl, rfl, rfl, rfl, rfl, rfl, rfl⟩

/-- A decoded symbol's row is selected in the state it was read in (30_encoding.md R36). -/
theorem selectedIn_of_decodeSymbol {st : Ctl} {cur : Cursor} {sym : Sym9} {i : Instr} (h : decodeSymbol st cur sym = .ok i) :
    i.selectedIn st cur = true := by
  rw [decodeSymbol] at h
  cases hSym : symbolOf sym with
  | reset =>
    rw [hSym] at h
    cases h
    rfl
  | byte b =>
    rw [hSym] at h
    cases st with
    | ws =>
      simp only [decodeByteOrMarker] at h
      split_ifs at h with hCr hBelow hFull
      · cases h
        rfl
      · cases h
        simp [Instr.selectedIn, hBelow]
      · cases h
        simp [Instr.selectedIn, hFull]
    | we =>
      simp only [decodeByteOrMarker] at h
      split_ifs at h <;> cases h <;> rfl

/-- The rows of the other units do not look at the assembler. -/
theorem selectedIn_of_partOf_ne_asm {i : Instr} (h : partOf i ≠ .asm) (st : Ctl) (cur : Cursor) :
    i.selectedIn st cur = true := by
  cases i with
  | feedReset | feedWsCr | feedWsData _ | feedWsOverrun _ | feedWeLf | feedWeOther _ | feedBadState _ => exact absurd rfl h
  | _ => rfl

theorem partOf_decodeSelect (sel : Sel2) : partOf (decodeSelect sel) = .cmd := by
  rw [decodeSelect]
  cases selectorOf sel <;> rfl

/-- The decoder gives only rows that the table selects. -/
theorem selectedIn_of_decode {st : Ctl} {cur : Cursor} {r : Request} {i : Instr} (h : decode st cur r = .ok i) :
    i.selectedIn st cur = true := by
  cases r with
  | symbol sym => exact selectedIn_of_decodeSymbol h
  | select sel =>
    cases h
    exact selectedIn_of_partOf_ne_asm (by simp [partOf_decodeSelect]) st cur
  | alone p =>
    cases h
    refine selectedIn_of_partOf_ne_asm ?_ st cur
    rcases partOf_decodePure p with hPart | hPart <;> simp [hPart]

/-- Settles O29: no state selects the row. -/
theorem badStateIsNeverDecoded : Obligations.BadStateIsNeverDecoded :=
  ⟨fun _ _ _ _ h => absurd (selectedIn_of_decode h) Bool.false_ne_true, fun _ _ => rfl⟩

end Sys2Proof.Machine
end

section
/-! Cells at or above the cursor are never read (10_state.md R17): every operation takes states that look alike to outcomes that
look alike. -/

namespace Sys2Proof.Machine

namespace State.SameVisible

variable {s t : State}

theorem putFeed (h : s.SameVisible t) (a : AsmOut) (o : IntOut) : (s.putFeed a o).SameVisible (t.putFeed a o) :=
  ⟨h.st, h.cur, h.payload, rfl, rfl, h.cmd, h.val, h.ins⟩

theorem putInt (h : s.SameVisible t) (o : IntOut) : (s.putInt o).SameVisible (t.putInt o) :=
  ⟨h.st, h.cur, h.payload, h.asm, rfl, h.cmd, h.val, h.ins⟩

theorem putVal (h : s.SameVisible t) (v : PureValue) : (s.putVal v).SameVisible (t.putVal v) :=
  ⟨h.st, h.cur, h.payload, h.asm, h.int, h.cmd, rfl, h.ins⟩

theorem send (h : s.SameVisible t) (sel : Selector) : (s.send sel).SameVisible (t.send sel) :=
  ⟨h.st, h.cur, h.payload, h.asm, h.int, rfl, h.val, h.ins⟩

theorem setSt (h : s.SameVisible t) (v : Ctl) : (s.setSt v).SameVisible (t.setSt v) :=
  ⟨rfl, h.cur, h.payload, h.asm, h.int, h.cmd, h.val, h.ins⟩

/-- With the cursor at 0 every cell is stale. -/
theorem setCur_zero (h : s.SameVisible t) : (s.setCur 0).SameVisible (t.setCur 0) :=
  ⟨h.st, rfl, rfl, h.asm, h.int, h.cmd, h.val, h.ins⟩

theorem raise (h : s.SameVisible t) (x : AsmDiag) : (s.raise x).SameVisible (t.raise x) :=
  (h.setCur_zero.setSt .ws).putFeed _ _

theorem begin (h : s.SameVisible t) : s.begin.SameVisible t.begin :=
  ⟨h.st, h.cur, h.payload, rfl, rfl, rfl, rfl, congrArg List.tail h.ins⟩

theorem hardReset (h : s.SameVisible t) : s.hardReset.SameVisible t.hardReset :=
  ⟨rfl, rfl, rfl, rfl, rfl, rfl, rfl, h.ins⟩

/-- The store of rule R52 makes cell `cur` visible, and writes it first. -/
theorem append (h : s.SameVisible t) (b : Byte) (hc : s.cur.toNat < Config.CAP) (a : AsmOut) (o : IntOut) :
    (({ s with buf := s.buf.write s.cur.toNat b }.setCur (s.cur + 1)).putFeed a o).SameVisible
      (({ t with buf := t.buf.write t.cur.toNat b }.setCur (t.cur + 1)).putFeed a o) where
  st := h.st
  cur := congrArg (· + 1) h.cur
  payload := by rw [State.payload_append s b a o hc, State.payload_append t b a o (h.cur ▸ hc), h.payload]
  asm := rfl
  int := rfl
  cmd := h.cmd
  val := h.val
  ins := h.ins

/-- The copy-out of rule R54 reads the accumulated payload and nothing else. -/
theorem memRead_cur (h : s.SameVisible t) : memRead s s.cur.toNat = memRead t t.cur.toNat := by
  have hCopy : s.buf.copy s.cur.toNat = t.buf.copy t.cur.toNat := h.payload
  rw [memRead, memRead, hCopy, h.cur]

theorem stim (h : s.SameVisible t) : s.stim = t.stim := congrArg (List.headD · _) h.ins

end State.SameVisible

/-- Outcomes that look alike are of one kind. -/
theorem sameOutcome_cases {x y : Host.Outcome State Fault Refusal} (h : sameOutcome x y) :
    (∃ s t, x = .next s ∧ y = .next t ∧ s.SameVisible t) ∨ (∃ e, x = .fault e ∧ y = .fault e) ∨
      ∃ e, x = .refused e ∧ y = .refused e := by
  cases x with
  | next s =>
    cases y with
    | next t => exact .inl ⟨s, t, rfl, rfl, h⟩
    | fault _ | refused _ => exact False.elim h
  | fault e =>
    cases y with
    | fault e' => exact .inr (.inl ⟨e, rfl, congrArg _ (Eq.symm h)⟩)
    | next _ | refused _ => exact False.elim h
  | refused e =>
    cases y with
    | refused e' => exact .inr (.inr ⟨e, rfl, congrArg _ (Eq.symm h)⟩)
    | next _ | fault _ => exact False.elim h

theorem sameOutcome_guardRow {c c' : Bool} {mn : String} {x y : Host.Outcome State Fault Refusal} (hc : c = c')
    (h : c = true → sameOutcome x y) : sameOutcome (guardRow c mn x) (guardRow c' mn y) := by
  subst hc
  cases c with
  | false => rfl
  | true => exact h rfl

theorem sameOutcome_execFeedWsData (b : Byte) {s t : State} (h : s.SameVisible t) :
    sameOutcome (execFeedWsData b s) (execFeedWsData b t) := by
  refine sameOutcome_guardRow (by rw [h.st, h.cur]) fun hc => ?_
  obtain ⟨-, hs⟩ := Bool.and_eq_true_iff.mp hc
  have hs := of_decide_eq_true hs
  rw [memWrite_of_lt s b hs, memWrite_of_lt t b (h.cur ▸ hs)]
  exact h.append b hs _ _

theorem sameOutcome_execFeedWeLf {s t : State} (h : s.SameVisible t) : sameOutcome (execFeedWeLf s) (execFeedWeLf t) := by
  refine sameOutcome_guardRow (by rw [h.st]) fun _ => ?_
  rw [h.memRead_cur]
  cases memRead t t.cur.toNat with
  | error e => rfl
  | ok f => exact (h.setCur_zero.setSt .ws).putFeed _ _

theorem sameOutcome_exec (i : Instr) {s t : State} (h : s.SameVisible t) : sameOutcome (exec i s) (exec i t) := by
  cases rowMeaning i with
  | interprets o _ hExec =>
    rw [hExec, hExec]
    exact sameOutcome_guardRow rfl fun _ => h.putInt o
  | computes v _ hExec =>
    rw [hExec, hExec]
    exact sameOutcome_guardRow rfl fun _ => h.putVal v
  | sends sel _ hExec =>
    rw [hExec, hExec]
    exact h.send sel
  | resyncs x _ _ hExec =>
    rw [hExec, hExec]
    exact sameOutcome_guardRow (by rw [h.st, h.cur]) fun _ => h.raise x
  | awaits hRow =>
    subst hRow
    exact sameOutcome_guardRow (by rw [h.st]) fun _ => (h.setSt .we).putFeed _ _
  | stores b hRow =>
    subst hRow
    exact sameOutcome_execFeedWsData b h
  | emits hRow =>
    subst hRow
    exact sameOutcome_execFeedWeLf h

/-- States that look alike decode a request alike, so they run the same row. -/
theorem sameOutcome_runRequest (r : Request) {s t : State} (h : s.SameVisible t) :
    sameOutcome (runRequest r s) (runRequest r t) := by
  rw [runRequest, runRequest, h.st, h.cur]
  cases decode t.st t.cur r with
  | error e => rfl
  | ok i => exact sameOutcome_exec i h

theorem sameOutcome_runRequests (rs : List Request) {s t : State} (h : s.SameVisible t) :
    sameOutcome (runRequests rs s) (runRequests rs t) := by
  induction rs generalizing s t with
  | nil => exact h
  | cons r rs ih =>
    rw [runRequests, runRequests]
    rcases sameOutcome_cases (sameOutcome_runRequest r h) with ⟨s', t', hs, ht, h'⟩ | ⟨e, hs, ht⟩ | ⟨e, hs, ht⟩
    · rw [hs, ht]
      exact ih h'
    · rw [hs, ht]
      rfl
    · rw [hs, ht]
      rfl

/-- Settles O12: the step takes the same stimulus in both states, and hardware reset and every request keep them alike. -/
theorem staleCellsAreUnobservable : Obligations.StaleCellsAreUnobservable := by
  intro s t h
  rw [step, step, runStim, runStim, h.stim]
  split_ifs
  · exact h.begin.hardReset
  · exact sameOutcome_runRequests _ h.begin

end Sys2Proof.Machine
end

section
/-! One store into the payload buffer (20_memory.md R22). -/

namespace Sys2Proof.Machine

/-- Settles O33: inside the buffer the store is `Memory.write` on the buffer alone; the index decides which case it is. -/
theorem storeWritesOneCell : Obligations.StoreWritesOneCell := by
  intro s i b
  constructor
  · intro hi
    exact ⟨_, memWrite_of_lt s b hi, Memory.read_write_same s.buf i b, fun _ ha => Memory.read_write_other s.buf b ha,
      fun hWf => Memory.wf_write b hWf hi, rfl⟩
  · exact memWrite_of_ge s b

end Sys2Proof.Machine
end

section
/-! A clock with a symbol and a command (20_memory.md R31): the two rows act on disjoint fields. -/

namespace Sys2Proof.Machine

/-- A request that answers hands its state to the requests after it. -/
theorem runRequests_cons_of_next {r : Request} {rs : List Request} {s t : State} (h : runRequest r s = .next t) :
    runRequests (r :: rs) s = runRequests rs t := by
  rw [runRequests, h]

/-- Settles O9: the symbol's row answers the state in which the selector's row runs. -/
theorem stepRunsSymbolAndCommand : Obligations.StepRunsSymbolAndCommand := by
  intro s t sym sel i rest hIns hDecode hExec
  have hSymbol : runRequest (.symbol sym) { s with
      asm := AsmOut.none, int := IntOut.none, cmd := CmdOut.none, val := none, ins := rest } = .next t := by
    refine (runRequest_of_decode ?_).trans hExec
    exact hDecode
  calc step s = runRequests [.symbol sym, .select sel] _ := step_of_ins_cons hIns
    _ = runRequest (.select sel) t := (runRequests_cons_of_next hSymbol).trans (runRequests_singleton _ t)
    _ = exec (decodeSelect sel) t := runRequest_of_decode rfl

/-- An outcome with its next state changed; a stop stays as it is. -/
def onNext (f : State → State) : Host.Outcome State Fault Refusal → Host.Outcome State Fault Refusal
  | .next s => .next (f s)
  | .fault e => .fault e
  | .refused r => .refused r

theorem onNext_guardRow (f : State → State) (c : Bool) (mn : String) (r : Host.Outcome State Fault Refusal) :
    onNext f (guardRow c mn r) = guardRow c mn (onNext f r) := by
  cases c <;> rfl

theorem memWrite_putCmd (s : State) (c : CmdOut) (i : Nat) (b : Byte) :
    memWrite (s.putCmd c) i b = (memWrite s i b).map (·.putCmd c) := by
  rcases Nat.lt_or_ge i Config.CAP with hi | hi
  · rw [memWrite_of_lt _ b hi, memWrite_of_lt s b hi]
    rfl
  · rw [memWrite_of_ge _ b hi, memWrite_of_ge s b hi]
    rfl

theorem memRead_putCmd (s : State) (c : CmdOut) (n : Nat) : memRead (s.putCmd c) n = memRead s n := rfl

/-- A FEED row neither reads nor writes the command unit's outputs, whether it answers or stops. -/
theorem exec_putCmd {i : Instr} (hPart : partOf i = .asm) (c : CmdOut) (s : State) :
    exec i (s.putCmd c) = onNext (·.putCmd c) (exec i s) := by
  cases rowMeaning i with
  | interprets _ hInt _ => simp [hInt] at hPart
  | computes _ hFn _ => simp [hFn] at hPart
  | sends _ hCmd _ => simp [hCmd] at hPart
  | resyncs x selected _ hExec =>
    rw [hExec, hExec, onNext_guardRow]
    rfl
  | awaits hRow =>
    subst hRow
    show execFeedWsCr _ = onNext _ (execFeedWsCr s)
    rw [execFeedWsCr, execFeedWsCr, onNext_guardRow]
    rfl
  | stores b hRow =>
    subst hRow
    show execFeedWsData b _ = onNext _ (execFeedWsData b s)
    rw [execFeedWsData, execFeedWsData, onNext_guardRow, State.putCmd_cur, memWrite_putCmd]
    cases memWrite s s.cur.toNat b <;> rfl
  | emits hRow =>
    subst hRow
    show execFeedWeLf _ = onNext _ (execFeedWeLf s)
    rw [execFeedWeLf, execFeedWeLf, onNext_guardRow, State.putCmd_cur, memRead_putCmd]
    cases memRead s s.cur.toNat <;> rfl

theorem runRequest_symbol_putCmd (sym : Sym9) (c : CmdOut) (s : State) :
    runRequest (.symbol sym) (s.putCmd c) = onNext (·.putCmd c) (runRequest (.symbol sym) s) := by
  rw [runRequest, runRequest, State.putCmd_st, State.putCmd_cur]
  cases hDecode : decode s.st s.cur (.symbol sym) with
  | error e => rfl
  | ok i => exact exec_putCmd (partOf_decodeSymbol hDecode) c s

theorem runRequests_symbol_select (sym : Sym9) (sel : Sel2) (s : State) :
    runRequests [.symbol sym, .select sel] s = onNext (·.send (selectorOf sel)) (runRequest (.symbol sym) s) := by
  rw [runRequests]
  cases runRequest (.symbol sym) s with
  | next t => exact (runRequests_singleton _ t).trans (runRequest_select sel t)
  | fault _ | refused _ => rfl

/-- Settles O10: a command request always answers, and the symbol's row has the same outcome before it and after it. -/
theorem symbolAndCommandCommute : Obligations.SymbolAndCommandCommute := by
  intro s sym sel
  calc runRequests [.symbol sym, .select sel] s
      = onNext (·.send (selectorOf sel)) (runRequest (.symbol sym) s) := runRequests_symbol_select sym sel s
    _ = runRequest (.symbol sym) (s.send (selectorOf sel)) := (runRequest_symbol_putCmd sym _ s).symm
    _ = runRequests [.select sel, .symbol sym] s := by
      rw [runRequests_cons_of_next (runRequest_select sel s), runRequests_singleton]

end Sys2Proof.Machine
end

section
/-! What the FEED rows answer where they are selected, and the equations of 40_assembler_feed.md R57. -/

namespace Sys2Proof.Machine

theorem exec_feedWsCr_of {s : State} (hSt : s.st = .ws) :
    exec .feedWsCr s = .next ((s.setSt .we).putFeed AsmOut.none IntOut.none) :=
  guardRow_of _ _ _ (by simp [hSt])

theorem exec_feedWsData_of {s : State} {b : Byte} (hSt : s.st = .ws) (hb : b ≠ Config.CR) (hc : s.cur.toNat < Config.CAP) :
    exec (.feedWsData b) s =
      .next (({ s with buf := s.buf.write s.cur.toNat b }.setCur (s.cur + 1)).putFeed AsmOut.none IntOut.none) := by
  refine (guardRow_of _ _ _ (by simp [hSt, hb, hc])).trans ?_
  rw [memWrite_of_lt s b hc]

theorem exec_feedWsOverrun_of {s : State} {b : Byte} (hSt : s.st = .ws) (hb : b ≠ Config.CR)
    (hc : s.cur.toNat = Config.CAP) : exec (.feedWsOverrun b) s = .next (s.raise .bufferOverrun) :=
  guardRow_of _ _ _ (by simp [hSt, hb, hc])

theorem exec_feedWeLf_of {s : State} {f : Frame} (hSt : s.st = .we) (hc : s.cur.toNat ≤ Config.CAP)
    (hf : s.payload = some f) :
    exec .feedWeLf s = .next (((s.setCur 0).setSt .ws).putFeed ⟨some f, none⟩ (interpret f)) := by
  refine (guardRow_of _ _ _ (by simp [hSt])).trans ?_
  rw [memRead_of_copy hc hf]

theorem exec_feedWeOther_of {s : State} {b : Byte} (hSt : s.st = .we) (hb : b ≠ Config.LF) :
    exec (.feedWeOther b) s = .next (s.raise .unexpectedTerminatorByte) :=
  guardRow_of _ _ _ (by simp [hSt, hb])

theorem Abs.feed_ws_cr (acc : List Byte) : (Abs.mk .ws acc).feed (.byte Config.CR) = (⟨.we, acc⟩, AsmOut.none) := rfl

theorem Abs.feed_ws_data {acc : List Byte} {b : Byte} (hb : b ≠ Config.CR) (hc : acc.length < Config.CAP) :
    (Abs.mk .ws acc).feed (.byte b) = (⟨.ws, acc ++ [b]⟩, AsmOut.none) :=
  (if_neg hb).trans (if_pos hc)

theorem Abs.feed_ws_overrun {acc : List Byte} {b : Byte} (hb : b ≠ Config.CR) (hc : Config.CAP ≤ acc.length) :
    (Abs.mk .ws acc).feed (.byte b) = (Abs.init, ⟨none, some .bufferOverrun⟩) :=
  (if_neg hb).trans (if_neg (Nat.not_lt.mpr hc))

theorem Abs.feed_we_lf (acc : List Byte) : (Abs.mk .we acc).feed (.byte Config.LF) = (Abs.init, ⟨some acc, none⟩) := rfl

theorem Abs.feed_we_other (acc : List Byte) {b : Byte} (hb : b ≠ Config.LF) :
    (Abs.mk .we acc).feed (.byte b) = (Abs.init, ⟨none, some .unexpectedTerminatorByte⟩) :=
  if_neg hb

end Sys2Proof.Machine
end

section
/-! The register machine against the function of 40_assembler_feed.md R57, on one symbol. -/

namespace Sys2Proof.Machine

/-- The state `t` shows the results `r` of R57's function, with the emitted frame interpreted (41_interpreter.md R69), and has what
is presented to `s` still before it. -/
structure Shows (s t : State) (r : Abs × AsmOut) : Prop where
  abs : t.abs = some r.1
  asm : t.asm = r.2
  int : t.int = interpretOut r.2
  ins : t.ins = s.ins

/-- Every diagnostic leaves the abstract state empty, with no frame to interpret (60_exceptions.md R88). -/
theorem shows_raise (s : State) (x : AsmDiag) : Shows s (s.raise x) (Abs.init, ⟨none, some x⟩) :=
  ⟨rfl, rfl, rfl, rfl⟩

theorem State.abs_of_payload {s : State} {acc : List Byte} (h : s.payload = some acc) : s.abs = some ⟨s.st, acc⟩ := by
  rw [State.abs, h, Option.map_some]

theorem State.payload_of_abs {s : State} {a : Abs} (h : s.abs = some a) :
    ∃ acc, s.payload = some acc ∧ a = ⟨s.st, acc⟩ := by
  obtain ⟨acc, hAcc, rfl⟩ := Option.map_eq_some_iff.mp h
  exact ⟨acc, hAcc, rfl⟩

/-- In `WS` under the invariants every byte has a row, and the row does what R57's equation for the byte says. -/
theorem ws_row_refines_feed {s : State} {acc : List Byte} (hSt : s.st = .ws) (hCur : s.cur.toNat ≤ Config.CAP)
    (hPayload : s.payload = some acc) (b : Byte) :
    ∃ i t, decodeByteOrMarker .ws s.cur (.byte b) = .ok i ∧ exec i s = .next t ∧
      Shows s t ((Abs.mk .ws acc).feed (.byte b)) := by
  have hLength := State.payload_length hPayload
  by_cases hCr : b = Config.CR
  · subst hCr
    exact ⟨_, _, rfl, exec_feedWsCr_of hSt, State.abs_of_payload hPayload, rfl, rfl, rfl⟩
  by_cases hBelow : s.cur.toNat < Config.CAP
  · refine ⟨_, _, by rw [decodeByteOrMarker, if_neg hCr, if_pos hBelow], exec_feedWsData_of hSt hCr hBelow, ?_⟩
    rw [Abs.feed_ws_data hCr (hLength ▸ hBelow)]
    have hGrown := State.payload_append s b AsmOut.none IntOut.none hBelow
    rw [hPayload, Option.map_some] at hGrown
    exact ⟨hSt ▸ State.abs_of_payload hGrown, rfl, rfl, rfl⟩
  · have hFull : s.cur.toNat = Config.CAP := le_antisymm hCur (Nat.not_lt.mp hBelow)
    refine ⟨_, _, by rw [decodeByteOrMarker, if_neg hCr, if_neg hBelow, if_pos hFull],
      exec_feedWsOverrun_of hSt hCr hFull, ?_⟩
    rw [Abs.feed_ws_overrun hCr (hLength.trans hFull).ge]
    exact shows_raise s _

/-- In `WE` every byte has a row, and the row does what R57's equation for the byte says. -/
theorem we_row_refines_feed {s : State} {acc : List Byte} (hSt : s.st = .we) (hCur : s.cur.toNat ≤ Config.CAP)
    (hPayload : s.payload = some acc) (b : Byte) :
    ∃ i t, decodeByteOrMarker .we s.cur (.byte b) = .ok i ∧ exec i s = .next t ∧
      Shows s t ((Abs.mk .we acc).feed (.byte b)) := by
  by_cases hLf : b = Config.LF
  · subst hLf
    exact ⟨_, _, rfl, exec_feedWeLf_of hSt hCur hPayload, rfl, rfl, rfl, rfl⟩
  · refine ⟨_, _, if_neg hLf, exec_feedWeOther_of hSt hLf, ?_⟩
    rw [Abs.feed_we_other acc hLf]
    exact shows_raise s _

/-- Under the invariants every symbol request answers, with the results of R57's function on the abstract state. -/
theorem runRequest_symbol_refines_feed {s : State} {a : Abs} (hInv : s.Inv) (ha : s.abs = some a) (sym : Sym9) :
    ∃ t, runRequest (.symbol sym) s = .next t ∧ Shows s t (a.feed (symbolOf sym)) := by
  obtain ⟨acc, hPayload, rfl⟩ := State.payload_of_abs ha
  suffices hRow : ∃ i t, decodeByteOrMarker s.st s.cur (symbolOf sym) = .ok i ∧ exec i s = .next t ∧
      Shows s t ((Abs.mk s.st acc).feed (symbolOf sym)) by
    obtain ⟨i, t, hDecode, hExec, hShows⟩ := hRow
    exact ⟨t, (runRequest_of_decode (r := .symbol sym) hDecode).trans hExec, hShows⟩
  cases symbolOf sym with
  | reset => exact ⟨.feedReset, _, rfl, rfl, shows_raise s _⟩
  | byte b =>
    cases hSt : s.st with
    | ws => exact ws_row_refines_feed hSt hInv.cur_le hPayload b
    | we => exact we_row_refines_feed hSt hInv.cur_le hPayload b

end Sys2Proof.Machine
end

section
/-! Clocks in a row, some of them idle (40_assembler_feed.md R59 (c), 00_scope.md R5). -/

namespace Sys2Proof.Machine

/-- Clocks in a row without reset or command: for each, the value on the symbol port, if there is one. -/
def portClocks (ports : List (Option Sym9)) : List Stim := ports.map fun sym => .clock false sym none

/-- What R57's function puts out on symbols in a row, with the interpreter's outputs beside it. -/
def Abs.outs (a : Abs) (syms : List Sym9) : List (AsmOut × IntOut) :=
  (a.feedAll (syms.map symbolOf)).2.map fun o => (o, interpretOut o)

/-- Clocks in a row do what R57's function does on the symbols among them; an idle clock leaves no trace. -/
theorem runOuts_portClocks (ports : List (Option Sym9)) {s : State} {a : Abs} {rest : List Stim} (hInv : s.Inv)
    (ha : s.abs = some a) (hIns : s.ins = portClocks ports ++ rest) :
    ∃ t outs, runOuts ports.length s = some (t, outs) ∧ t.abs = some (a.feedAll (ports.reduceOption.map symbolOf)).1 ∧
      heard outs = heard (a.outs ports.reduceOption) ∧ t.ins = rest := by
  induction ports generalizing s a with
  | nil => exact ⟨s, [], rfl, ha, rfl, hIns⟩
  | cons port ports ih =>
    have hStim := State.stim_of_ins_cons hIns
    have hTaken : s.begin.ins = portClocks ports ++ rest := congrArg List.tail hIns
    cases port with
    | none =>
      have hStep := step_of_stim_idle hStim
      obtain ⟨t, outs, hRun, hAbs, hHeard, hRest⟩ := ih (stepKeepsInvariants s _ hInv hStep) ha hTaken
      rw [List.reduceOption_cons_of_none]
      refine ⟨t, _, by rw [List.length_cons, runOuts_succ hStep, hRun, Option.map_some], hAbs, ?_, hRest⟩
      exact (heard_silent outs).trans hHeard
    | some sym =>
      have hBegin : s.begin.Inv := hInv.of_buffer_eq rfl rfl (.inl rfl)
      obtain ⟨u, hRequest, hShows⟩ := runRequest_symbol_refines_feed hBegin ha sym
      have hStep : step s = .next u := by
        rw [step, hStim]
        exact (runStim_stimOf (.symbol sym) s.begin).trans hRequest
      obtain ⟨t, outs, hRun, hAbs, hHeard, hRest⟩ :=
        ih (stepKeepsInvariants s u hInv hStep) hShows.abs (hShows.ins.trans hTaken)
      rw [List.reduceOption_cons_of_some]
      refine ⟨t, _, by rw [List.length_cons, runOuts_succ hStep, hRun, Option.map_some], hAbs, ?_, hRest⟩
      rw [heard_cons, hHeard, hShows.asm, hShows.int]
      exact (heard_cons _ _).symm

/-- The symbol port during chunks: nothing in the gap before each. -/
def chunkPorts (chunks : List (Nat × List Sym9)) : List (Option Sym9) :=
  chunks.flatMap fun c => List.replicate c.1 none ++ c.2.map some

theorem portClocks_map_some (syms : List Sym9) : portClocks (syms.map some) = symbolClocks syms := List.map_map

theorem portClocks_chunkPorts (chunks : List (Nat × List Sym9)) : portClocks (chunkPorts chunks) = chunkClocks chunks := by
  simp [portClocks, chunkPorts, chunkClocks, symbolClocks, List.map_flatMap, Function.comp_def]

theorem reduceOption_map_some (syms : List Sym9) : (syms.map some).reduceOption = syms := by
  simp [List.reduceOption]

theorem reduceOption_chunkPorts (chunks : List (Nat × List Sym9)) :
    (chunkPorts chunks).reduceOption = chunks.flatMap Prod.snd := by
  induction chunks with
  | nil => rfl
  | cons c chunks ih =>
    rw [chunkPorts, List.flatMap_cons, List.reduceOption_append, List.reduceOption_append,
      List.reduceOption_replicate_none, reduceOption_map_some, List.flatMap_cons]
    exact congrArg (c.2 ++ ·) ih

theorem length_portClocks (ports : List (Option Sym9)) : (portClocks ports).length = ports.length := List.length_map _

/-- Settles O35: with and without the gaps, the clocks present the same symbols to R57's function. -/
theorem chunksDoNotMatter : Obligations.ChunksDoNotMatter := by
  intro s chunks rest hInv
  obtain ⟨acc, hAcc, -⟩ := hInv.payload
  have hAbs := State.abs_of_payload hAcc
  have hRun (ports : List (Option Sym9)) :=
    runOuts_portClocks ports (s := { s with ins := portClocks ports ++ rest }) (hInv.of_buffer_eq rfl rfl (.inr rfl)) hAbs rfl
  obtain ⟨t, outs, hGaps, ht, hHeard, hRest⟩ := hRun (chunkPorts chunks)
  obtain ⟨u, outs', hNoGaps, hu, hHeard', hRest'⟩ := hRun ((chunks.flatMap Prod.snd).map some)
  rw [← length_portClocks, portClocks_chunkPorts] at hGaps
  rw [List.length_map, portClocks_map_some] at hNoGaps
  rw [reduceOption_chunkPorts] at ht hHeard
  rw [reduceOption_map_some] at hu hHeard'
  exact ⟨t, u, _, outs, outs', hGaps, hNoGaps, ht, hu, hHeard.trans hHeard'.symm, hRest, hRest'⟩

end Sys2Proof.Machine
end

section
/-! The symbol port (30_encoding.md R34, R36): what each symbol denotes, the decoder's equation for each row of the symbol table, and
the table's own columns. -/

namespace Sys2Proof.Machine

/-- The marker bit alone makes the marker, whatever the byte field holds (30_encoding.md R34). -/
@[simp] theorem symbolOf_marker (b : Byte) : symbolOf (1#1 ++ b : BitVec 9) = .reset :=
  if_pos (by rw [BitVec.getLsbD_append]; rfl)

@[simp] theorem symbolOf_byte (b : Byte) : symbolOf (0#1 ++ b : BitVec 9) = .byte b :=
  (if_neg (by rw [BitVec.getLsbD_append]; exact Bool.false_ne_true)).trans (congrArg Symbol.byte (extract_append_low 0#1 b))

/-- Settles O16, for every byte field by the layout of the port, not by cases. -/
theorem symbolFormat : Obligations.SymbolFormat := fun b => ⟨symbolOf_marker b, symbolOf_byte b⟩

section Rows
variable {st : Ctl} {cur : Cursor} {b : Byte}

theorem decodeSymbol_marker : decodeSymbol st cur (1#1 ++ b : BitVec 9) = .ok .feedReset := by
  rw [decodeSymbol, symbolOf_marker, decodeByteOrMarker]

theorem decodeSymbol_ws_cr : decodeSymbol .ws cur (0#1 ++ Config.CR : BitVec 9) = .ok .feedWsCr := by
  rw [decodeSymbol, symbolOf_byte, decodeByteOrMarker, if_pos rfl]

theorem decodeSymbol_ws_data (hCr : b ≠ Config.CR) (hBelow : cur.toNat < Config.CAP) :
    decodeSymbol .ws cur (0#1 ++ b : BitVec 9) = .ok (.feedWsData b) := by
  rw [decodeSymbol, symbolOf_byte, decodeByteOrMarker, if_neg hCr, if_pos hBelow]

theorem decodeSymbol_ws_overrun (hCr : b ≠ Config.CR) (hFull : cur.toNat = Config.CAP) :
    decodeSymbol .ws cur (0#1 ++ b : BitVec 9) = .ok (.feedWsOverrun b) := by
  rw [decodeSymbol, symbolOf_byte, decodeByteOrMarker, if_neg hCr, if_neg hFull.not_lt, if_pos hFull]

theorem decodeSymbol_we_lf : decodeSymbol .we cur (0#1 ++ Config.LF : BitVec 9) = .ok .feedWeLf := by
  rw [decodeSymbol, symbolOf_byte, decodeByteOrMarker, if_pos rfl]

theorem decodeSymbol_we_other (hLf : b ≠ Config.LF) :
    decodeSymbol .we cur (0#1 ++ b : BitVec 9) = .ok (.feedWeOther b) := by
  rw [decodeSymbol, symbolOf_byte, decodeByteOrMarker, if_neg hLf]

end Rows

/-- The columns `match` and `mask` of FEED.RESET hold of every marker and of no byte. -/
theorem matches_marker (m : BitVec 1) (b : Byte) : ((m ++ b : BitVec 9) &&& 0x100 == 0x100) = (m == 1) := by
  revert m b; decide

/-- The columns `match` and `mask` of a row for bytes hold of every byte and of no marker. -/
theorem matches_anyByte (m : BitVec 1) (b : Byte) : ((m ++ b : BitVec 9) &&& 0x100 == 0x000) = (m == 0) := by
  revert m b; decide

/-- The columns `match` and `mask` of FEED.WS.CR. -/
theorem matches_cr (m : BitVec 1) (b : Byte) : ((m ++ b : BitVec 9) &&& 0x1FF == 0x00D) = (m == 0 && b == Config.CR) := by
  revert m b; decide

/-- The columns `match` and `mask` of FEED.WE.LF. -/
theorem matches_lf (m : BitVec 1) (b : Byte) : ((m ++ b : BitVec 9) &&& 0x1FF == 0x00A) = (m == 0 && b == Config.LF) := by
  revert m b; decide

/-- The mnemonic of each row of the table, beside the row's columns as tests on the marker bit, the byte, `st` and `cur`. -/
def symTests (st : Ctl) (cur : Cursor) (m : BitVec 1) (b : Byte) : List (String × Bool) :=
  [("FEED.RESET", m == 1),
   ("FEED.WS.CR", m == 0 && st == .ws && b == Config.CR),
   ("FEED.WS.DATA", m == 0 && st == .ws && b != Config.CR && cur.toNat < Config.CAP),
   ("FEED.WS.OVERRUN", m == 0 && st == .ws && b != Config.CR && cur.toNat == Config.CAP),
   ("FEED.WE.LF", m == 0 && st == .we && b == Config.LF),
   ("FEED.WE.OTHER", m == 0 && st == .we && b != Config.LF),
   ("FEED.BADSTATE", false)]

theorem symTable_tests (st : Ctl) (cur : Cursor) (m : BitVec 1) (b : Byte) :
    (symTable.map fun row => (row.mnemonic, row.selects st cur (m ++ b : BitVec 9))) = symTests st cur m b := by
  simp only [symTable, SymRow.selects, symTests, List.map_cons, List.map_nil, matches_marker, matches_anyByte, matches_cr,
    matches_lf, extract_append_low]
  simp [Bool.and_right_comm]

theorem symTable_selected (st : Ctl) (cur : Cursor) (m : BitVec 1) (b : Byte) :
    (symTable.filter fun row => row.selects st cur (m ++ b : BitVec 9)).map SymRow.mnemonic =
      ((symTests st cur m b).filter Prod.snd).map Prod.fst := by
  rw [← symTable_tests, List.filter_map, List.map_map]
  rfl

/-- Settles O17: the decoder's conditions for a row make that row's columns hold and those of every other row fail. -/
theorem symbolTableSelectsOneRow : Obligations.SymbolTableSelectsOneRow := by
  intro st cur sym hCur
  rcases sym_cases sym with ⟨b, rfl⟩ | ⟨b, rfl⟩
  · exact ⟨_, decodeSymbol_marker, symTable_selected st cur 1 b⟩
  suffices hRow : ∃ i, decodeSymbol st cur (0#1 ++ b : BitVec 9) = .ok i ∧
      ((symTests st cur 0 b).filter Prod.snd).map Prod.fst = [i.mnemonic] by
    obtain ⟨i, hDecode, hTests⟩ := hRow
    exact ⟨i, hDecode, (symTable_selected st cur 0 b).trans hTests⟩
  cases st with
  | ws =>
    by_cases hCr : b = Config.CR
    · subst hCr
      exact ⟨_, decodeSymbol_ws_cr, rfl⟩
    by_cases hBelow : cur.toNat < Config.CAP
    · exact ⟨_, decodeSymbol_ws_data hCr hBelow, by simp [symTests, hCr, hBelow, hBelow.ne, Instr.mnemonic]⟩
    · have hFull : cur.toNat = Config.CAP := le_antisymm hCur (Nat.not_lt.mp hBelow)
      exact ⟨_, decodeSymbol_ws_overrun hCr hFull, by simp [symTests, hCr, hFull, Instr.mnemonic]⟩
  | we =>
    by_cases hLf : b = Config.LF
    · subst hLf
      exact ⟨_, decodeSymbol_we_lf, rfl⟩
    · exact ⟨_, decodeSymbol_we_other hLf, by simp [symTests, hLf, Instr.mnemonic]⟩

end Sys2Proof.Machine
end

section
/-! The classes of frames (30_encoding.md R38): the decoder's equations, the class's conditions, and the way back to the frame. -/

namespace Sys2Proof.Machine

theorem decodeFrame_unknown {tag : Byte} (hTrace : tag ≠ Config.TAG_TRACE) (hApp : tag ≠ Config.TAG_APP) (rest : List Byte) :
    decodeFrame (tag :: rest) = .intUnknown tag rest := by
  rw [decodeFrame, if_neg hTrace, if_neg hApp]

theorem decodeApp_subType (digits : List Byte) :
    decodeApp (Config.SUB_TEMP0 :: Config.SUB_TEMP1 :: digits) = decodeTemp digits := rfl

theorem decodeApp_other {text : List Byte} (h : startsWithSubType text = false) : decodeApp text = .intAppOther text := by
  rw [decodeApp, h, if_neg Bool.false_ne_true]

theorem decodeTemp_short {digits : List Byte} (h : digits.length < 4) : decodeTemp digits = .intAppShort digits := by
  match digits with
  | [] | [_] | [_, _] | [_, _, _] => rfl
  | _ :: _ :: _ :: _ :: _ => exact absurd h (by simp)

theorem encode_decodeTemp (digits : List Byte) :
    encode (decodeTemp digits) = .alone (.frame ([Config.TAG_APP, Config.SUB_TEMP0, Config.SUB_TEMP1] ++ digits)) := by
  unfold decodeTemp
  split <;> rfl

theorem encode_decodeApp (text : List Byte) : encode (decodeApp text) = .alone (.frame (Config.TAG_APP :: text)) := by
  cases hSub : startsWithSubType text with
  | true =>
    obtain ⟨digits, rfl⟩ := startsWithSubType_eq hSub
    exact encode_decodeTemp digits
  | false => rw [decodeApp_other hSub, encode]

/-- No byte of a frame is lost. -/
theorem encode_decodeFrame (f : Frame) : encode (decodeFrame f) = .alone (.frame f) := by
  cases f with
  | nil => rfl
  | cons tag text =>
    by_cases hTrace : tag = Config.TAG_TRACE
    · subst hTrace; rfl
    by_cases hApp : tag = Config.TAG_APP
    · subst hApp; exact encode_decodeApp text
    · rw [decodeFrame_unknown hTrace hApp, encode]

theorem mnemonic_decodeTemp (digits : List Byte) :
    (decodeTemp digits).mnemonic = if 4 ≤ digits.length then "INT.APP.TEMP" else "INT.APP.SHORT" := by
  match digits with
  | [] | [_] | [_, _] | [_, _, _] => rfl
  | _ :: _ :: _ :: _ :: _ => simp [decodeTemp, Instr.mnemonic]

theorem startsWithSubType_iff (text : List Byte) :
    startsWithSubType text = true ↔ text[0]? = some Config.SUB_TEMP0 ∧ text[1]? = some Config.SUB_TEMP1 := by
  match text with
  | [] | [_] => simp [startsWithSubType]
  | _ :: _ :: _ => simp [startsWithSubType]

/-- The class of an application frame by its length and the bytes after the tag (30_encoding.md R38). -/
theorem mnemonic_decodeApp (text : List Byte) :
    (decodeApp text).mnemonic =
      if 7 ≤ text.length + 1 ∧ text[0]? = some Config.SUB_TEMP0 ∧ text[1]? = some Config.SUB_TEMP1 then "INT.APP.TEMP"
      else if 3 ≤ text.length + 1 ∧ text.length + 1 ≤ 6 ∧ text[0]? = some Config.SUB_TEMP0 ∧
        text[1]? = some Config.SUB_TEMP1 then "INT.APP.SHORT"
      else "INT.APP.OTHER" := by
  cases hSub : startsWithSubType text with
  | true =>
    obtain ⟨digits, rfl⟩ := startsWithSubType_eq hSub
    rw [decodeApp_subType, mnemonic_decodeTemp]
    by_cases hLength : 4 ≤ digits.length <;> simp [hLength]
  | false =>
    have hNot := (startsWithSubType_iff text).not.mp (by simp [hSub])
    simp [decodeApp_other hSub, hNot, Instr.mnemonic]

/-- Settles O18: the tag decides first, and only an application frame is looked at further. -/
theorem frameClassesPartition : Obligations.FrameClassesPartition := by
  intro f
  refine ⟨wellFormed_decodeFrame f, encode_decodeFrame f, ?_⟩
  cases f with
  | nil => rfl
  | cons tag text =>
    by_cases hTrace : tag = Config.TAG_TRACE
    · subst hTrace; rfl
    by_cases hApp : tag = Config.TAG_APP
    · subst hApp
      exact mnemonic_decodeApp text
    · rw [decodeFrame_unknown hTrace hApp]
      exact ((if_neg (Nat.succ_ne_zero _)).trans ((if_neg fun h => hTrace (Option.some.inj h)).trans
        (if_neg fun h => hApp (Option.some.inj h)))).symm

end Sys2Proof.Machine
end

section
/-! The hex digit rows (30_encoding.md R40) against `hexval` (42_thermometer.md R70): the value of each bit pattern. -/

namespace Sys2Proof.Machine

/-- The bit patterns of R40 leave no bit of the byte out, over all 256 bytes. -/
theorem encode_decodeHexByte (b : Byte) : encode (decodeHexByte b) = .alone (.hexByte b) := by
  revert b
  decide

section Patterns
variable (d : BitVec 3)

theorem hexval_decLo : hexval (0b00110#5 ++ d) = d.setWidth 4 := by
  revert d
  decide

theorem hexval_decHi (d : BitVec 1) : hexval (0b0011100#7 ++ d) = 8 + d.setWidth 4 := by
  revert d
  decide

theorem hexval_upper : (Instr.hexvalUpper d).wellFormed = true → hexval (0b01000#5 ++ d) = 9 + d.setWidth 4 := by
  revert d
  decide

theorem hexval_lower : (Instr.hexvalLower d).wellFormed = true → hexval (0b01100#5 ++ d) = 9 + d.setWidth 4 := by
  revert d
  decide

theorem hexval_other (b : Byte) : (Instr.hexvalOther b).wellFormed = true → hexval b = 0 := by
  revert b
  decide

end Patterns

/-- A well-formed HEXVAL row puts out `hexval` of the byte that presents it. -/
theorem exec_of_encode_hexByte {i : Instr} {b : Byte} (hWf : i.wellFormed = true) (hByte : encode i = .alone (.hexByte b))
    (s : State) : exec i s = .next (s.putVal (.nibble (hexval b))) := by
  cases i with
  | hexvalDecLo d =>
    cases hByte
    rw [hexval_decLo]
    rfl
  | hexvalDecHi d =>
    cases hByte
    rw [hexval_decHi]
    rfl
  | hexvalUpper d =>
    cases hByte
    rw [hexval_upper d hWf]
    exact guardRow_of _ _ _ hWf
  | hexvalLower d =>
    cases hByte
    rw [hexval_lower d hWf]
    exact guardRow_of _ _ _ hWf
  | hexvalOther b =>
    cases hByte
    rw [hexval_other b hWf]
    exact guardRow_of _ _ _ hWf
  | _ => cases hByte

/-- Settles O49: the row a byte decodes to is well formed and is presented by that byte. -/
theorem hexDigitRowsAgreeWithHexval : Obligations.HexDigitRowsAgreeWithHexval := fun b s =>
  exec_of_encode_hexByte (wellFormed_decodeHexByte b) (encode_decodeHexByte b) s

/-- The condition of the letter rows, on the value of the operand (30_encoding.md R40). -/
theorem letter_condition {d : BitVec 3} (hLow : 1 ≤ d.toNat) (hHigh : d.toNat ≤ 6) :
    (decide (1 ≤ d) && decide (d ≤ 6)) = true := by
  rw [Bool.and_eq_true, decide_eq_true_eq, decide_eq_true_eq]
  exact ⟨hLow, hHigh⟩

/-- Settles O48: each row answers where its condition on the operand holds, and widening the operand keeps its value. -/
theorem hexDigitRowsResult : Obligations.HexDigitRowsResult := by
  intro s
  refine ⟨fun d => ?_, fun d => ?_, fun d hLow hHigh => ?_, fun d hLow hHigh => ?_, fun b hOther => ?_⟩
  · rw [BitVec.ofNat_toNat]
    rfl
  · rw [BitVec.ofNat_add, BitVec.ofNat_toNat]
    rfl
  · rw [BitVec.ofNat_add, BitVec.ofNat_toNat]
    exact guardRow_of _ _ _ (letter_condition hLow hHigh)
  · rw [BitVec.ofNat_add, BitVec.ofNat_toNat]
    exact guardRow_of _ _ _ (letter_condition hLow hHigh)
  · exact guardRow_of _ _ _ (by rw [hOther, Bool.not_false])

end Sys2Proof.Machine
end

section
/-! Decoding and encoding undo each other (30_encoding.md R34, R36, R38, R40, R42). -/

namespace Sys2Proof.Machine

/-- Each well-formed HEXVAL row is the one its byte decodes to: no pattern of R40 is taken by a test before its own. -/
theorem decodeHexByte_of_encode {i : Instr} (hWf : i.wellFormed = true) {b : Byte} (hByte : encode i = .alone (.hexByte b)) :
    decodeHexByte b = i := by
  cases i with
  | hexvalDecLo d => cases hByte; revert d; decide
  | hexvalDecHi d => cases hByte; revert d; decide
  | hexvalUpper d => cases hByte; revert d; decide
  | hexvalLower d => cases hByte; revert d; decide
  | hexvalOther b => cases hByte; revert b; decide
  | _ => cases hByte

/-- Settles O20, row by row: where the row is selected, the tests of the decode table that stand before its own fail. -/
theorem decodeOfEncode : Obligations.DecodeOfEncode := by
  intro i st cur hWf hSel
  cases i with
  | feedReset => exact decodeSymbol_marker (b := 0)
  | feedWsCr =>
    obtain rfl := eq_of_beq hSel
    exact decodeSymbol_ws_cr
  | feedWsData b =>
    obtain ⟨hSt, hBelow⟩ := Bool.and_eq_true_iff.mp hSel
    obtain rfl := eq_of_beq hSt
    exact decodeSymbol_ws_data (bne_iff_ne.mp hWf) (of_decide_eq_true hBelow)
  | feedWsOverrun b =>
    obtain ⟨hSt, hFull⟩ := Bool.and_eq_true_iff.mp hSel
    obtain rfl := eq_of_beq hSt
    exact decodeSymbol_ws_overrun (bne_iff_ne.mp hWf) (eq_of_beq hFull)
  | feedWeLf =>
    obtain rfl := eq_of_beq hSel
    exact decodeSymbol_we_lf
  | feedWeOther b =>
    obtain rfl := eq_of_beq hSel
    exact decodeSymbol_we_other (bne_iff_ne.mp hWf)
  | feedBadState b => cases hSel
  | intEmpty | intTrace _ | intAppTemp _ _ _ _ _ => rfl
  | intAppShort digits =>
    exact congrArg Except.ok (decodeTemp_short (Nat.lt_of_add_lt_add_left (of_decide_eq_true hWf : 3 + digits.length < 3 + 4)))
  | intAppOther text => exact congrArg Except.ok (decodeApp_other (Bool.not_eq_true' _ ▸ hWf))
  | intUnknown tag rest =>
    obtain ⟨hTrace, hApp⟩ := Bool.and_eq_true_iff.mp hWf
    exact congrArg Except.ok (decodeFrame_unknown (bne_iff_ne.mp hTrace) (bne_iff_ne.mp hApp) rest)
  | hexvalDecLo _ | hexvalDecHi _ | hexvalUpper _ | hexvalLower _ | hexvalOther _ =>
    exact congrArg Except.ok (decodeHexByte_of_encode hWf rfl)
  | hexpair h l => exact congrArg Except.ok (decodePure_pair h l)
  | magnitude a b c d => exact congrArg Except.ok (decodePure_quad a b c d)
  | temp10 _ | render _ | ledRed | ledGreen | ledBlue | ledOff | serialize _ => rfl

/-- What a byte on the symbol port decodes to is well formed and is presented by that byte. -/
theorem decodeSymbol_byte_inv {st : Ctl} {cur : Cursor} {b : Byte} {i : Instr}
    (h : decodeSymbol st cur (0#1 ++ b : BitVec 9) = .ok i) :
    i.wellFormed = true ∧ encode i = .symbol (0#1 ++ b : BitVec 9) := by
  rw [decodeSymbol, symbolOf_byte] at h
  cases st with
  | ws =>
    simp only [decodeByteOrMarker] at h
    split_ifs at h with hCr hBelow hFull
    · subst hCr
      cases h
      exact ⟨rfl, rfl⟩
    · cases h
      exact ⟨bne_iff_ne.mpr hCr, rfl⟩
    · cases h
      exact ⟨bne_iff_ne.mpr hCr, rfl⟩
  | we =>
    simp only [decodeByteOrMarker] at h
    split_ifs at h with hLf
    · subst hLf
      cases h
      exact ⟨rfl, rfl⟩
    · cases h
      exact ⟨bne_iff_ne.mpr hLf, rfl⟩

theorem encode_decodeSelect (sel : Sel2) : encode (decodeSelect sel) = .select sel := by
  revert sel
  decide

theorem wellFormed_decodeSelect (sel : Sel2) : (decodeSelect sel).wellFormed = true := by
  rw [decodeSelect]
  cases selectorOf sel <;> rfl

/-- The two byte fields of a HEXPAIR word are all of it (42_thermometer.md R71). -/
theorem append_two_bytes (w : BitVec 16) : w.extractLsb' 8 8 ++ w.extractLsb' 0 8 = w := by
  rw [BitVec.extractLsb'_append_extractLsb'_eq_extractLsb' (show 8 = 0 + 8 from rfl)]
  exact BitVec.extractLsb'_eq_self

/-- The four byte fields of a MAGNITUDE word are all of it (42_thermometer.md R72). -/
theorem append_four_bytes (w : BitVec 32) :
    w.extractLsb' 24 8 ++ w.extractLsb' 16 8 ++ w.extractLsb' 8 8 ++ w.extractLsb' 0 8 = w := by
  rw [BitVec.extractLsb'_append_extractLsb'_eq_extractLsb' (show 24 = 16 + 8 from rfl),
    BitVec.extractLsb'_append_extractLsb'_eq_extractLsb' (show 16 = 8 + 8 from rfl),
    BitVec.extractLsb'_append_extractLsb'_eq_extractLsb' (show 8 = 0 + 8 from rfl)]
  exact BitVec.extractLsb'_eq_self

theorem encode_decodePure (r : PureRequest) : encode (decodePure r) = .alone r := by
  cases r with
  | frame f => exact encode_decodeFrame f
  | hexByte b => exact encode_decodeHexByte b
  | pair w => exact congrArg (Request.alone <| .pair ·) (append_two_bytes w)
  | quad w => exact congrArg (Request.alone <| .quad ·) (append_four_bytes w)
  | mag _ | tenths _ | wire _ => rfl

/-- Settles O21: every format keeps all its bits, but for the byte field of a marker. -/
theorem encodeOfDecode : Obligations.EncodeOfDecode := by
  intro st cur r i h
  suffices hRow : i.wellFormed = true ∧
      (encode i = r ∨ ∃ b : Byte, r = .symbol (1#1 ++ b : BitVec 9) ∧ i = .feedReset) from
    ⟨hRow.1, selectedIn_of_decode h, hRow.2⟩
  cases r with
  | symbol sym =>
    rcases sym_cases sym with ⟨b, rfl⟩ | ⟨b, rfl⟩
    · cases decodeSymbol_marker.symm.trans h
      exact ⟨rfl, .inr ⟨b, rfl, rfl⟩⟩
    · obtain ⟨hWf, hEncode⟩ := decodeSymbol_byte_inv h
      exact ⟨hWf, .inl hEncode⟩
  | select sel =>
    cases h
    exact ⟨wellFormed_decodeSelect sel, .inl (encode_decodeSelect sel)⟩
  | alone p =>
    cases h
    exact ⟨wellFormed_decodePure p, .inl (encode_decodePure p)⟩

/-- Settles O19: the decoder makes no other test than the four comparisons. -/
theorem commandFormats : Obligations.CommandFormats :=
  ⟨rfl, rfl, rfl, rfl, rfl, rfl, rfl, rfl, fun _ hRed hGreen hBlue hOff =>
    (if_neg hRed).trans ((if_neg hGreen).trans ((if_neg hBlue).trans (if_neg hOff)))⟩

/-- Settles O22, by running the decoder on the ten words. -/
theorem sampleWordsDecode : Obligations.SampleWordsDecode := by
  unfold Obligations.SampleWordsDecode
  decide

end Sys2Proof.Machine
end

section
/-! The output ports (30_encoding.md R47). -/

namespace Sys2Proof.Machine

theorem driveBytes_get {n : Nat} (u : Vector Byte n) (bytes : List Byte) (i : Fin n) :
    (driveBytes u bytes)[i] = (bytes[i.val]?).getD u[i] := by
  simp [driveBytes]

/-- Below the length a data port shows the byte, whatever the undriven bits are. -/
theorem driveBytes_of_lt {n : Nat} (u : Vector Byte n) {bytes : List Byte} {i : Fin n} (h : i.val < bytes.length) :
    some (driveBytes u bytes)[i] = bytes[i.val]? := by
  rw [driveBytes_get, List.getElem?_eq_getElem h, Option.getD_some]

/-- A length that fits the port is shown as it is. -/
theorem lenPort_toNat {n : Nat} (h : n ≤ Config.CAP) : (BitVec.ofNat Config.CURW n).toNat = n :=
  Nat.mod_eq_of_lt (h.trans_lt (by decide))

theorem echoKind_eq_zero_iff (x : Option Echo) : echoKind x = 0 ↔ x = none := by
  cases x with
  | none => simp [echoKind]
  | some e => cases e <;> simp [echoKind]

/-- Settles O60: an output that is there overrides the undriven bits of its port. -/
theorem portsShowOutputs : Obligations.PortsShowOutputs := by
  intro u s
  refine ⟨Option.isSome_iff_exists, fun f hf hFits => ?_, rfl, rfl, echoKind_eq_zero_iff _, fun x hx hFits => ?_,
    Option.isSome_iff_exists, fun t ht => ?_, Option.isSome_iff_exists, fun a b c d hTx => ?_⟩
  · simp only [State.ports, hf, Option.map_some, Option.getD_some]
    exact ⟨lenPort_toNat hFits, fun i hi => driveBytes_of_lt _ hi⟩
  · simp only [State.ports, hx, Option.map_some, Option.getD_some]
    exact ⟨by cases x <;> rfl, lenPort_toNat (hFits.trans (Nat.sub_le _ _)), fun i hi => driveBytes_of_lt _ hi⟩
  · simp only [State.ports, ht, Option.getD_some]
  · simp only [State.ports, hTx, Option.getD_some]
    rfl

end Sys2Proof.Machine
end

section
/-! One clock with a symbol on the port, with or without a command (40_assembler_feed.md R57, R59 (b)). -/

namespace Sys2Proof.Machine

/-- What the symbol's row answers is what the step answers; a command in the same clock adds its own outputs alone. -/
theorem step_of_symbol {s u : State} {sym : Sym9} {sel : Option Sel2} {rest : List Stim}
    (hIns : s.ins = .clock false (some sym) sel :: rest) (hSymbol : runRequest (.symbol sym) s.begin = .next u) :
    ∃ c, step s = .next (u.putCmd c) := by
  rw [step, State.stim_of_ins_cons hIns]
  cases sel with
  | none => exact ⟨u.cmd, (runStim_stimOf (.symbol sym) s.begin).trans hSymbol⟩
  | some sel =>
    exact ⟨_, (runRequests_symbol_select sym sel s.begin).trans (congrArg (onNext _) hSymbol)⟩

/-- Settles O11: the symbol's row does what R57's function does, and the command's outputs are none of those compared. -/
theorem stepRefinesAbstractFeed : Obligations.StepRefinesAbstractFeed := by
  intro s a sym sel rest hInv ha hIns
  have hBegin : s.begin.Inv := hInv.of_buffer_eq rfl rfl (.inl rfl)
  obtain ⟨u, hSymbol, hAbs, hAsm, hInt, hRest⟩ := runRequest_symbol_refines_feed hBegin ha sym
  obtain ⟨c, hStep⟩ := step_of_symbol hIns hSymbol
  exact ⟨_, hStep, hAbs, hAsm, hInt, hRest.trans (congrArg List.tail hIns)⟩

/-- Settles O34: every state decodes a marker to FEED.RESET, which has no guard. -/
theorem resetMarkerFromAnyState : Obligations.ResetMarkerFromAnyState := by
  intro s b sel rest hIns
  have hSymbol : runRequest (.symbol (1#1 ++ b : BitVec 9)) s.begin = .next (s.begin.raise .protocolReset) :=
    runRequest_of_decode (r := .symbol _) decodeSymbol_marker
  obtain ⟨c, hStep⟩ := step_of_symbol hIns hSymbol
  exact ⟨_, hStep, rfl, rfl, rfl, rfl, congrArg List.tail hIns⟩

end Sys2Proof.Machine
end

section
/-! The FEED rows one by one (40_assembler_feed.md R50 to R55). -/

namespace Sys2Proof.Machine

/-- Settles O23: the marker is decoded and served without a look at the state. -/
theorem feedResetResult : Obligations.FeedResetResult :=
  ⟨fun _ _ _ => decodeSymbol_marker, fun _ => ⟨rfl, rfl⟩⟩

/-- Settles O24: neither the decoder nor the row looks at the cursor. -/
theorem feedCarriageReturnResult : Obligations.FeedCarriageReturnResult := by
  intro s hSt
  refine ⟨?_, exec_feedWsCr_of hSt⟩
  rw [hSt]
  exact decodeSymbol_ws_cr

/-- Settles O25: the row stores into the cell at the cursor, which then counts as payload. -/
theorem feedDataResult : Obligations.FeedDataResult := by
  intro s b hSt hCr hBelow
  refine ⟨?_, _, exec_feedWsData_of hSt hCr hBelow, hSt, Cursor.toNat_succ hBelow, Memory.read_write_same s.buf _ b,
    fun _ ha => Memory.read_write_other s.buf b ha, State.payload_append s b _ _ hBelow, rfl, rfl, rfl, rfl, rfl⟩
  rw [hSt]
  exact decodeSymbol_ws_data hCr hBelow

/-- Settles O26: with a full buffer the row raises the diagnostic, which leaves the cells as they are. -/
theorem feedOverrunResult : Obligations.FeedOverrunResult := by
  intro s b hSt hCr hFull
  refine ⟨?_, exec_feedWsOverrun_of hSt hCr hFull⟩
  rw [hSt]
  exact decodeSymbol_ws_overrun hCr hFull

/-- Settles O27: the frame is the accumulated payload, which the invariants say is there and holds no 0x0D. -/
theorem feedLineFeedResult : Obligations.FeedLineFeedResult := by
  intro s hInv hSt
  obtain ⟨f, hPayload, hNoCr⟩ := hInv.payload
  have hLength := State.payload_length hPayload
  refine ⟨?_, f, hLength, hLength.trans_le hInv.cur_le, hNoCr, fun i hi => Memory.copy_getElem? hPayload hi,
    exec_feedWeLf_of hSt hInv.cur_le hPayload⟩
  rw [hSt]
  exact decodeSymbol_we_lf

/-- Settles O28: the row raises the diagnostic, whatever the cursor. -/
theorem feedBrokenTerminatorResult : Obligations.FeedBrokenTerminatorResult := by
  intro s b hSt hLf
  refine ⟨?_, exec_feedWeOther_of hSt hLf⟩
  rw [hSt]
  exact decodeSymbol_we_other hLf

end Sys2Proof.Machine
end

section
/-! The control state `WE` (10_state.md R14 (I-d)): how a step gets there. -/

namespace Sys2Proof.Machine

/-- The carriage return's row is the one FEED row that ends in `WE`. -/
theorem eq_feedWsCr_of_exec_we {i : Instr} {s t : State} (hPart : partOf i = .asm) (h : exec i s = .next t)
    (hWe : t.st = .we) : i = .feedWsCr := by
  cases rowMeaning i with
  | interprets _ hInt _ => simp [hInt] at hPart
  | computes _ hFn _ => simp [hFn] at hPart
  | sends _ hCmd _ => simp [hCmd] at hPart
  | resyncs x _ _ hExec =>
    obtain ⟨-, h⟩ := guardRow_eq_next (hExec s ▸ h)
    cases h
    cases hWe
  | awaits hRow => exact hRow
  | stores b hRow =>
    subst hRow
    obtain ⟨hWs, -, -, rfl⟩ := execFeedWsData_eq_next h
    cases hWs.symm.trans hWe
  | emits hRow =>
    subst hRow
    obtain ⟨-, -, f, -, rfl⟩ := execFeedWeLf_eq_next h
    cases hWe

theorem symbolOf_of_decode_feedWsCr {st : Ctl} {cur : Cursor} {sym : Sym9} (h : decodeSymbol st cur sym = .ok .feedWsCr) :
    symbolOf sym = .byte Config.CR := by
  obtain ⟨-, -, hEncode | ⟨-, -, hReset⟩⟩ := encodeOfDecode st cur (.symbol sym) _ h
  · cases hEncode
    exact symbolOf_byte Config.CR
  · cases hReset

/-- A symbol whose row ends in `WE` is a carriage return in `WS`, and neither the cursor nor a cell has changed. -/
theorem carriageReturn_of_exec_we {i : Instr} {s t : State} {sym : Sym9} (hDecode : decodeSymbol s.st s.cur sym = .ok i)
    (h : exec i s = .next t) (hWe : t.st = .we) :
    s.st = .ws ∧ symbolOf sym = .byte Config.CR ∧ t.cur = s.cur ∧ t.buf = s.buf := by
  obtain rfl := eq_feedWsCr_of_exec_we (partOf_decodeSymbol hDecode) h hWe
  obtain ⟨-, h⟩ := guardRow_eq_next h
  cases h
  exact ⟨eq_of_beq (selectedIn_of_decodeSymbol hDecode), symbolOf_of_decode_feedWsCr hDecode, rfl, rfl⟩

theorem exec_decodePure_keeps_assembler {r : PureRequest} {s t : State} (h : exec (decodePure r) s = .next t) :
    t.st = s.st ∧ t.cur = s.cur ∧ t.buf = s.buf := by
  rcases exec_decodePure r with ⟨o, hExec⟩ | ⟨v, hExec⟩
  · cases (hExec s).symm.trans h
    exact ⟨rfl, rfl, rfl⟩
  · cases (hExec s).symm.trans h
    exact ⟨rfl, rfl, rfl⟩

theorem symbol_eq_none_of_stim {s : State} {cmd : Option Sel2} (h : s.stim = .clock false none cmd) :
    ∀ rst sym sel, s.stim = .clock rst sym sel → sym = none := by
  intro rst sym sel hClock
  cases h.symm.trans hClock
  rfl

/-- Settles O15: a step without a symbol keeps `st`, `cur` and the cells, but for hardware reset, which ends in `WS`. -/
theorem waitingForEndLastsOneSymbol : Obligations.WaitingForEndLastsOneSymbol := by
  intro s t h hWe
  cases step_cases h with
  | hardReset _ ht =>
    subst ht
    cases hWe
  | idle hStim ht =>
    subst ht
    exact ⟨.inl ⟨hWe, symbol_eq_none_of_stim hStim⟩, rfl, rfl⟩
  | symbol sym i hStim hDecode ht =>
    obtain ⟨hWs, hCr, hCur, hBuf⟩ := carriageReturn_of_exec_we (s := s.begin) hDecode ht hWe
    exact ⟨.inr ⟨hWs, sym, _, hStim, hCr⟩, hCur, hBuf⟩
  | command sel hStim ht =>
    subst ht
    exact ⟨.inl ⟨hWe, symbol_eq_none_of_stim hStim⟩, rfl, rfl⟩
  | both sym sel i u hStim hDecode hu ht =>
    subst ht
    obtain ⟨hWs, hCr, hCur, hBuf⟩ := carriageReturn_of_exec_we (s := s.begin) hDecode hu hWe
    exact ⟨.inr ⟨hWs, sym, _, hStim, hCr⟩, hCur, hBuf⟩
  | alone r hStim ht =>
    obtain ⟨hSt, hCur, hBuf⟩ := exec_decodePure_keeps_assembler ht
    exact ⟨.inl ⟨hSt.symm.trans hWe, fun _ _ _ hClock => by cases hStim.symm.trans hClock⟩, hCur, hBuf⟩

end Sys2Proof.Machine
end

section
/-! Feeding lines to the function of 40_assembler_feed.md R57: what comes after an observed terminator (R59 (a)), and lines
longer than the buffer (R53 (b)). -/

namespace Sys2Proof.Machine

theorem symbolsOf_append (bs bs' : List Byte) : symbolsOf (bs ++ bs') = symbolsOf bs ++ symbolsOf bs' := List.map_append

theorem Abs.feedAll_append (a : Abs) (xs ys : List Symbol) :
    a.feedAll (xs ++ ys) =
      (((a.feedAll xs).1.feedAll ys).1, (a.feedAll xs).2 ++ ((a.feedAll xs).1.feedAll ys).2) := by
  induction xs generalizing a with
  | nil => rfl
  | cons x xs ih => simp only [List.cons_append, Abs.feedAll, ih]

/-- The first symbol of several, when its equation is known. -/
theorem Abs.feedAll_cons {a a' : Abs} {x : Symbol} {o : AsmOut} (h : a.feed x = (a', o)) (xs : List Symbol) :
    a.feedAll (x :: xs) = ((a'.feedAll xs).1, o :: (a'.feedAll xs).2) := by
  rw [Abs.feedAll, h]

/-- The terminator pair in `WS` emits what was accumulated and leaves nothing. -/
theorem Abs.feedAll_terminator (acc : List Byte) :
    (Abs.mk .ws acc).feedAll (symbolsOf [Config.CR, Config.LF]) = (Abs.init, [AsmOut.none, ⟨some acc, none⟩]) := rfl

/-- A line that fits beside what was accumulated is accumulated, with no output. -/
theorem Abs.feedAll_fitting_line (acc line : List Byte) (hNoCr : Config.CR ∉ line)
    (hFits : acc.length + line.length ≤ Config.CAP) :
    (Abs.mk .ws acc).feedAll (symbolsOf line) = (⟨.ws, acc ++ line⟩, List.replicate line.length AsmOut.none) := by
  induction line generalizing acc with
  | nil => simp [symbolsOf, Abs.feedAll]
  | cons b line ih =>
    obtain ⟨hb, hNoCr⟩ := List.ne_and_not_mem_of_not_mem_cons hNoCr
    rw [List.length_cons] at hFits
    have hFeed := Abs.feed_ws_data (acc := acc) hb.symm (by omega)
    have hRest := ih (acc ++ [b]) hNoCr (by rw [List.length_append, List.length_singleton]; omega)
    refine (Abs.feedAll_cons hFeed (symbolsOf line)).trans ?_
    rw [hRest, List.append_assoc, List.singleton_append, List.length_cons, List.replicate_succ]

/-- Settles O36: the first pair empties the accumulator, the line fills it, the second pair emits it. -/
theorem noResidueAfterTerminator : Obligations.NoResidueAfterTerminator := by
  intro a xs line hSt hNoCr hFits
  obtain ⟨acc, hAcc⟩ : ∃ acc, (a.feedAll xs).1 = ⟨.ws, acc⟩ := ⟨_, congrArg (Abs.mk · _) hSt⟩
  have hLine : Abs.init.feedAll (symbolsOf line) = (⟨.ws, line⟩, List.replicate line.length AsmOut.none) :=
    Abs.feedAll_fitting_line [] line hNoCr (by simpa using hFits)
  have hAll : (Abs.mk .ws acc).feedAll (symbolsOf ([Config.CR, Config.LF] ++ line ++ [Config.CR, Config.LF])) =
      (Abs.init, [AsmOut.none, ⟨some acc, none⟩] ++ List.replicate line.length AsmOut.none ++
        [AsmOut.none, ⟨some line, none⟩]) := by
    rw [symbolsOf_append, symbolsOf_append, Abs.feedAll_append, Abs.feedAll_append, Abs.feedAll_terminator, hLine,
      Abs.feedAll_terminator]
  rw [Abs.feedAll_append, hAcc, hAll]
  exact ⟨rfl, (List.getLast?_append_of_ne_nil _ (by simp)).trans (List.getLast?_append_of_ne_nil _ (by simp))⟩

/-- The results `r` of feeding `line` and its terminator are those of R53 (b): an overrun for every CAP + 1 bytes, no other
diagnostic, and then the bytes after the last overrun as the one frame. -/
structure OverrunsThenEmits (line : List Byte) (r : Abs × List AsmOut) : Prop where
  abs : r.1 = Abs.init
  diags : r.2.filterMap AsmOut.diag = List.replicate (line.length / (Config.CAP + 1)) .bufferOverrun
  frames : r.2.filterMap AsmOut.frame = [line.drop ((Config.CAP + 1) * (line.length / (Config.CAP + 1)))]

namespace OverrunsThenEmits

variable {line : List Byte} {r : Abs × List AsmOut}

/-- A line that fits raises nothing and is emitted whole. -/
theorem emitted (hFits : line.length ≤ Config.CAP) :
    OverrunsThenEmits line (Abs.init, [AsmOut.none, ⟨some line, none⟩]) := by
  have hNoOverrun : line.length / (Config.CAP + 1) = 0 := Nat.div_eq_of_lt (Nat.lt_succ_of_le hFits)
  exact ⟨rfl, by rw [hNoOverrun]; rfl, by rw [hNoOverrun]; rfl⟩

theorem silent (h : OverrunsThenEmits line r) : OverrunsThenEmits line (r.1, AsmOut.none :: r.2) :=
  ⟨h.abs, h.diags, h.frames⟩

/-- An overrun drops CAP + 1 bytes, the one that arrived among them. -/
theorem overrun (h : OverrunsThenEmits line r) {full : List Byte} (hFull : full.length = Config.CAP + 1) :
    OverrunsThenEmits (full ++ line) (r.1, ⟨none, some .bufferOverrun⟩ :: r.2) := by
  have hCount : (full ++ line).length / (Config.CAP + 1) = line.length / (Config.CAP + 1) + 1 := by
    rw [List.length_append, hFull, Nat.add_div_left _ (Nat.succ_pos _)]
  refine ⟨h.abs, ?_, ?_⟩
  · rw [hCount, List.replicate_succ, ← h.diags]
    rfl
  · rw [hCount, Nat.mul_succ, Nat.add_comm, ← hFull, List.drop_length_add_append, hFull]
    exact h.frames

end OverrunsThenEmits

/-- What was accumulated counts as the beginning of the line. -/
theorem Abs.feedAll_line (acc line : List Byte) (hAcc : acc.length ≤ Config.CAP) (hNoCr : Config.CR ∉ line) :
    OverrunsThenEmits (acc ++ line) ((Abs.mk .ws acc).feedAll (symbolsOf (line ++ [Config.CR, Config.LF]))) := by
  induction line generalizing acc with
  | nil =>
    rw [List.append_nil, List.nil_append, Abs.feedAll_terminator]
    exact .emitted hAcc
  | cons b line ih =>
    obtain ⟨hb, hNoCr⟩ := List.ne_and_not_mem_of_not_mem_cons hNoCr
    have hLength : (acc ++ [b]).length = acc.length + 1 := List.length_append
    rw [List.append_cons]
    rcases Nat.lt_or_eq_of_le hAcc with hBelow | hFull
    · have hFeed := Abs.feedAll_cons (Abs.feed_ws_data hb.symm hBelow) (symbolsOf (line ++ [Config.CR, Config.LF]))
      exact hFeed ▸ (ih (acc ++ [b]) (hLength.trans_le hBelow) hNoCr).silent
    · have hFeed := Abs.feedAll_cons (Abs.feed_ws_overrun hb.symm hFull.ge)
        (symbolsOf (line ++ [Config.CR, Config.LF]))
      exact hFeed ▸ (ih [] (Nat.zero_le _) hNoCr).overrun (hLength.trans (congrArg (· + 1) hFull))

/-- Settles O37: the line from the empty accumulator. -/
theorem overlongLineOverruns : Obligations.OverlongLineOverruns := by
  intro line hNoCr
  obtain ⟨hAbs, hDiags, hFrames⟩ := Abs.feedAll_line [] line (Nat.zero_le _) hNoCr
  exact ⟨hAbs, hDiags, hFrames⟩

end Sys2Proof.Machine
end

section
/-! What one step puts out (40_assembler_feed.md R58, 41_interpreter.md R60, R69, 60_exceptions.md R87). -/

namespace Sys2Proof.Machine

/-- The range of rule R74, over every magnitude of 16 bits. -/
theorem tenthsOf_range (m : Mag) : -500 ≤ tenthsOf m.toNat ∧ tenthsOf m.toNat ≤ 200653 := by
  have hm : m.toNat < 65536 := m.isLt
  simp only [tenthsOf, Config.SCALE_NUM, Config.SCALE_DEN, Config.OFFSET]
  omega

/-- T10W bits hold every value of the formula. -/
theorem temp10_toInt (m : Mag) : (temp10 m).toInt = tenthsOf m.toNat := by
  obtain ⟨hLow, hHigh⟩ := tenthsOf_range m
  exact BitVec.toInt_ofInt_eq_self (by decide) (le_trans (by decide) hLow) (hHigh.trans_lt (by decide))

theorem temp10_range (m : Mag) : -500 ≤ (temp10 m).toInt ∧ (temp10 m).toInt ≤ 200653 :=
  temp10_toInt m ▸ tenthsOf_range m

/-- The limits on the interpreter's outputs alone. -/
structure IntOut.Legal (o : IntOut) : Prop where
  one : o.temp = .none ∨ o.diag = .none
  tempEcho : o.temp ≠ .none → ∃ text, o.echo = some (.app text)
  tempRange : ∀ t, o.temp = some t → -500 ≤ t.toInt ∧ t.toInt ≤ 200653

/-- Only a temperature is limited. -/
theorem IntOut.Legal.of_temp_none {o : IntOut} (h : o.temp = .none) : o.Legal where
  one := .inl h
  tempEcho hTemp := absurd h hTemp
  tempRange t ht := by cases h.symm.trans ht

theorem outAppTemp_legal (text : List Byte) (m : Mag) : (outAppTemp text (temp10 m)).Legal where
  one := .inr rfl
  tempEcho _ := ⟨text, rfl⟩
  tempRange t ht := by
    cases ht
    exact temp10_range m

theorem frameT10_eq_some {f : Frame} {t : T10} (h : frameT10 f = some t) : ∃ m, t = temp10 m := by
  unfold frameT10 at h
  split at h
  · exact ⟨_, (Option.some.inj h).symm⟩
  · cases h

theorem interpretApp_legal (f : Frame) : (interpretApp f).Legal := by
  unfold interpretApp
  split
  · split
    · rename_i t ht
      split at ht
      · obtain ⟨m, rfl⟩ := frameT10_eq_some ht
        exact outAppTemp_legal _ m
      · cases ht
    · exact .of_temp_none rfl
  · exact .of_temp_none rfl

/-- A frame's interpretation keeps the limits: an application frame alone has a temperature. -/
theorem interpret_legal (f : Frame) : (interpret f).Legal := by
  unfold interpret
  split
  · exact .of_temp_none rfl
  · split_ifs
    · exact .of_temp_none rfl
    · exact interpretApp_legal f
    · exact .of_temp_none rfl

/-- An INT row evaluated alone puts out interpreter outputs within the limits. -/
theorem exec_int_legal {i : Instr} {s t : State} (hPart : partOf i = .int) (h : exec i s = .next t) :
    ∃ o : IntOut, o.Legal ∧ t = s.putInt o := by
  cases i with
  | intEmpty | intTrace _ =>
    cases h
    exact ⟨_, .of_temp_none rfl, rfl⟩
  | intAppTemp a b c d rest =>
    cases h
    exact ⟨_, outAppTemp_legal _ _, rfl⟩
  | intAppShort _ | intAppOther _ | intUnknown _ _ =>
    obtain ⟨-, h⟩ := guardRow_eq_next h
    cases h
    exact ⟨_, .of_temp_none rfl, rfl⟩
  | _ => cases hPart

/-- What the assembler has not put out leaves the interpreter's own limits and the command unit's. -/
theorem State.OutputsLegal.of_asm_none {s : State} (hAsm : s.asm = AsmOut.none) (hInt : s.int.Legal)
    (hTx : s.cmd.tx = s.cmd.frame.map serialize) : s.OutputsLegal where
  asmOne := .inl (by rw [hAsm, AsmOut.none_frame])
  intOne := hInt.one
  units := .inl (by rw [hAsm, AsmOut.none_diag])
  tempEcho := hInt.tempEcho
  tempRange := hInt.tempRange
  txFrame := hTx

theorem State.OutputsLegal.begin (s : State) : s.begin.OutputsLegal := .of_asm_none rfl (.of_temp_none rfl) rfl

/-- A command's outputs are its frame and that frame serialised, beside whatever else is put out. -/
theorem State.OutputsLegal.send {s : State} (h : s.OutputsLegal) (sel : Selector) : (s.send sel).OutputsLegal :=
  ⟨h.asmOne, h.intOne, h.units, h.tempEcho, h.tempRange, rfl⟩

/-- A FEED row has one of the four register effects of rule R57. -/
theorem feedEffect_of_exec {i : Instr} {s t : State} (hPart : partOf i = .asm) (h : exec i s = .next t) :
    FeedEffect s t := by
  cases rowMeaning i with
  | interprets _ hInt _ => simp [hInt] at hPart
  | computes _ hFn _ => simp [hFn] at hPart
  | sends _ hCmd _ => simp [hCmd] at hPart
  | resyncs x _ _ hExec =>
    obtain ⟨-, h⟩ := guardRow_eq_next (hExec s ▸ h)
    cases h
    exact .raised x rfl
  | awaits hRow =>
    subst hRow
    obtain ⟨hWs, h⟩ := guardRow_eq_next h
    cases h
    exact .awaited (eq_of_beq hWs) rfl
  | stores b hRow =>
    subst hRow
    obtain ⟨hWs, hCr, hBelow, ht⟩ := execFeedWsData_eq_next h
    exact .stored b hWs hCr hBelow ht
  | emits hRow =>
    subst hRow
    obtain ⟨hWe, hCur, f, hf, ht⟩ := execFeedWeLf_eq_next h
    exact .emitted f hWe hCur hf ht

/-- The FEED rows put out a diagnostic, nothing, or a frame with its interpretation. -/
theorem FeedEffect.outputsLegal {s t : State} (h : FeedEffect s t) (hs : s.OutputsLegal) : t.OutputsLegal := by
  cases h with
  | raised x ht =>
    subst ht
    exact ⟨.inl rfl, .inl rfl, .inr rfl, by simp, by simp, hs.txFrame⟩
  | awaited _ ht =>
    subst ht
    exact .of_asm_none rfl (.of_temp_none rfl) hs.txFrame
  | stored b _ _ _ ht =>
    subst ht
    exact .of_asm_none rfl (.of_temp_none rfl) hs.txFrame
  | emitted f _ _ _ ht =>
    subst ht
    have hInt := interpret_legal f
    exact ⟨.inr rfl, hInt.one, .inl rfl, hInt.tempEcho, hInt.tempRange, hs.txFrame⟩

theorem exec_decodedSymbol_outputsLegal {s t : State} {sym : Sym9} {i : Instr}
    (hDecode : decodeSymbol s.st s.cur sym = .ok i) (h : exec i s.begin = .next t) : t.OutputsLegal :=
  (feedEffect_of_exec (partOf_decodeSymbol hDecode) h).outputsLegal (.begin s)

theorem exec_decodePure_outputsLegal {s t : State} {r : PureRequest} (h : exec (decodePure r) s.begin = .next t) :
    t.OutputsLegal := by
  rcases partOf_decodePure r with hInt | hFn
  · obtain ⟨o, hLegal, rfl⟩ := exec_int_legal hInt h
    exact .of_asm_none rfl hLegal rfl
  · obtain ⟨-, hKeepsAsm, hKeepsInt, hKeepsCmd, -, -⟩ := eachRowsFrame _ _ _ h
    obtain ⟨-, -, hAsm⟩ := hKeepsAsm (by simp [hFn])
    have hInt := hKeepsInt (by simp [hFn]) (by simp [hFn])
    have hCmd := hKeepsCmd (by simp [hFn])
    refine .of_asm_none hAsm (.of_temp_none ?_) ?_
    · rw [hInt, State.begin_int, IntOut.none_temp]
    · rw [hCmd]
      rfl

/-- Settles O5: outputs are cleared at the beginning of a step, and each of its rows puts out its own unit's. -/
theorem stepOutputsAreLegal : Obligations.StepOutputsAreLegal := by
  intro s t h
  cases step_cases h with
  | hardReset _ ht => exact ht ▸ .of_asm_none rfl (.of_temp_none rfl) rfl
  | idle _ ht => exact ht ▸ .begin s
  | symbol _ _ _ hDecode ht => exact exec_decodedSymbol_outputsLegal hDecode ht
  | command sel _ ht => exact ht ▸ (State.OutputsLegal.begin s).send _
  | both _ sel _ u _ hDecode hu ht => exact ht ▸ (exec_decodedSymbol_outputsLegal hDecode hu).send _
  | alone r _ ht => exact exec_decodePure_outputsLegal ht

end Sys2Proof.Machine
end

section
/-! The classes of frames against `interpret` (41_interpreter.md R60 to R67): what the tests over offsets answer on each class, and
what the class's row puts out. -/

namespace Sys2Proof.Machine

theorem interpret_unknown {tag : Byte} (hTrace : tag ≠ Config.TAG_TRACE) (hApp : tag ≠ Config.TAG_APP) (rest : List Byte) :
    interpret (tag :: rest) = outUnknown :=
  (if_neg hTrace).trans (if_neg hApp)

/-- Offsets 1 and 2 of a frame are the first two bytes after its tag. -/
theorem hasSubType_cons (tag : Byte) (text : List Byte) : hasSubType (tag :: text) = startsWithSubType text := by
  rw [Bool.eq_iff_iff, startsWithSubType_iff]
  simp [hasSubType, frameAt]

theorem interpretApp_other {text : List Byte} (h : startsWithSubType text = false) (tag : Byte) :
    interpretApp (tag :: text) = outAppOther text := by
  rw [interpretApp, hasSubType_cons, h, if_neg Bool.false_ne_true, List.drop_one, List.tail_cons]

theorem interpretApp_short {digits : List Byte} (h : digits.length ≤ 3) (tag : Byte) :
    interpretApp (tag :: Config.SUB_TEMP0 :: Config.SUB_TEMP1 :: digits) =
      outAppShort (Config.SUB_TEMP0 :: Config.SUB_TEMP1 :: digits) := by
  have hShort : ¬ Config.TEMP_MIN_LEN ≤ (tag :: Config.SUB_TEMP0 :: Config.SUB_TEMP1 :: digits).length :=
    Nat.not_le.mpr (Nat.add_lt_add_right (Nat.lt_succ_of_le h) 3)
  rw [interpretApp, if_neg hShort]
  rfl

theorem interpretApp_temp (tag a b c d : Byte) (rest : List Byte) :
    interpretApp (tag :: Config.SUB_TEMP0 :: Config.SUB_TEMP1 :: a :: b :: c :: d :: rest) =
      outAppTemp (Config.SUB_TEMP0 :: Config.SUB_TEMP1 :: a :: b :: c :: d :: rest) (temp10 (magnitude a b c d)) := by
  have hLong : Config.TEMP_MIN_LEN ≤ (tag :: Config.SUB_TEMP0 :: Config.SUB_TEMP1 :: a :: b :: c :: d :: rest).length :=
    Nat.le_add_left 7 rest.length
  rw [interpretApp, if_pos hLong]
  rfl

/-- Settles O39: no test comes before the one for length zero, and the row has no guard. -/
theorem emptyFrameResult : Obligations.EmptyFrameResult := ⟨rfl, rfl, fun _ => rfl⟩

/-- Settles O40: the tag decides, whatever the text, and the row has no guard. -/
theorem traceFrameResult : Obligations.TraceFrameResult := fun _ _ => ⟨rfl, rfl, rfl⟩

/-- Settles O41: the length test fails in the decoder, over offsets and in the row's guard alike. -/
theorem shortTemperatureFrameResult : Obligations.ShortTemperatureFrameResult := by
  intro digits s hShort
  have hFewer : digits.length < 4 := Nat.lt_succ_of_le hShort
  have hGuard : 3 + digits.length < Config.TEMP_MIN_LEN := Nat.add_lt_add_left hFewer 3
  exact ⟨decodeTemp_short hFewer, interpretApp_short hShort Config.TAG_APP, guardRow_of _ _ _ (decide_eq_true hGuard)⟩

/-- Settles O42: a text without the sub-type fails the sub-type test in the decoder and over offsets, and meets the row's guard. -/
theorem otherApplicationFrameResult : Obligations.OtherApplicationFrameResult := by
  intro text s hNot
  have hSub : startsWithSubType text = false := Bool.eq_false_iff.mpr fun h => hNot ((startsWithSubType_iff text).mp h)
  exact ⟨decodeApp_other hSub, interpretApp_other hSub Config.TAG_APP, guardRow_of _ _ _ (by rw [hSub, Bool.not_false])⟩

/-- Settles O43: with four bytes after the sub-type the length test holds for any rest. -/
theorem temperatureFrameResult : Obligations.TemperatureFrameResult := by
  intro a b c d rest s
  have hInterpret := interpretApp_temp Config.TAG_APP a b c d rest
  exact ⟨rfl, hInterpret, congrArg IntOut.tempText hInterpret, rfl⟩

/-- Settles O44: both comparisons of the tag fail in the decoder and in `interpret`, which is the row's guard. -/
theorem unknownTagResult : Obligations.UnknownTagResult := by
  intro tag rest s hTrace hApp
  exact ⟨decodeFrame_unknown hTrace hApp rest, interpret_unknown hTrace hApp rest,
    guardRow_of _ _ _ (Bool.and_eq_true_iff.mpr ⟨bne_iff_ne.mpr hTrace, bne_iff_ne.mpr hApp⟩)⟩

/-- The six classes of frames (30_encoding.md R38), each with the form of its frames. -/
inductive FrameClass : Frame → Prop where
  | empty : FrameClass []
  | trace (text : List Byte) : FrameClass (0x54 :: text)
  | temperature (a b c d : Byte) (rest : List Byte) : FrameClass ([0x41, 0x35, 0x34, a, b, c, d] ++ rest)
  | short (digits : List Byte) (hShort : digits.length ≤ 3) : FrameClass ([0x41, 0x35, 0x34] ++ digits)
  | other (text : List Byte) (hNot : ¬ (text[0]? = some 0x35 ∧ text[1]? = some 0x34)) : FrameClass (0x41 :: text)
  | unknown (tag : Byte) (rest : List Byte) (hTrace : tag ≠ 0x54) (hApp : tag ≠ 0x41) : FrameClass (tag :: rest)

/-- After the sub-type the length alone decides. -/
theorem frameClass_subType (digits : List Byte) : FrameClass ([0x41, 0x35, 0x34] ++ digits) := by
  match digits with
  | a :: b :: c :: d :: rest => exact .temperature a b c d rest
  | [] | [_] | [_, _] | [_, _, _] => exact .short _ (by simp)

/-- Every frame is in a class. -/
theorem frameClass (f : Frame) : FrameClass f := by
  cases f with
  | nil => exact .empty
  | cons tag text =>
    by_cases hTrace : tag = 0x54
    · exact hTrace ▸ .trace text
    by_cases hApp : tag = 0x41
    · subst hApp
      cases hSub : startsWithSubType text with
      | true =>
        obtain ⟨digits, rfl⟩ := startsWithSubType_eq hSub
        exact frameClass_subType digits
      | false => exact .other text fun h => Bool.false_ne_true (hSub.symm.trans ((startsWithSubType_iff text).mpr h))
    · exact .unknown tag text hTrace hApp

/-- Settles O45, class by class: the row of each class puts out what the tests over offsets answer. -/
theorem frameRowsAgreeWithInterpret : Obligations.FrameRowsAgreeWithInterpret := by
  intro f s
  cases frameClass f with
  | empty | trace _ => rfl
  | temperature a b c d rest =>
    obtain ⟨hDecode, hInterpret, -, hExec⟩ := temperatureFrameResult a b c d rest s
    rw [hDecode, hInterpret, hExec]
  | short digits hShort =>
    obtain ⟨hDecode, hInterpret, hExec⟩ := shortTemperatureFrameResult digits s hShort
    rw [hDecode, hInterpret, hExec]
  | other text hNot =>
    obtain ⟨hDecode, hInterpret, hExec⟩ := otherApplicationFrameResult text s hNot
    rw [hDecode, hInterpret, hExec]
  | unknown tag rest hTrace hApp =>
    obtain ⟨hDecode, hInterpret, hExec⟩ := unknownTagResult tag rest s hTrace hApp
    rw [hDecode, hInterpret, hExec]

/-- An application frame echoes the bytes after its tag, whatever else it puts out (41_interpreter.md R63). -/
theorem interpretApp_echo (f : Frame) : (interpretApp f).echo = some (.app (f.drop 1)) := by
  unfold interpretApp
  split
  · split <;> rfl
  · rfl

/-- An echo's text is the frame without its tag. -/
theorem text_of_interpret_echo {f : Frame} {x : Echo} (h : (interpret f).echo = some x) : x.text = f.drop 1 := by
  unfold interpret at h
  split at h
  · cases h
  · split_ifs at h
    · cases h
      rfl
    · cases (interpretApp_echo f).symm.trans h
      rfl
    · cases h

/-- Settles O46: of the temperature and the diagnostic at most one is there (41_interpreter.md R60), and neither is an echo. -/
theorem eventsInOrder : Obligations.EventsInOrder := by
  intro f
  refine ⟨_, List.append_assoc _ _ _, ?_, ?_, fun x => text_of_interpret_echo⟩
  · rcases (interpret_legal f).one with hTemp | hDiag
    · simp [hTemp]
    · simp [hDiag]
  · rintro e he x rfl
    simp at he

end Sys2Proof.Machine
end

section
/-! The value of a hex digit (42_thermometer.md R70), the numbers read from hex digits (R71, R72), and hex written again (R79). -/

namespace Sys2Proof.Machine

/-- The ranges of R70 on the value of the byte. -/
theorem hexval_toNat (b : Byte) :
    (hexval b).toNat =
      if 0x30 ≤ b.toNat ∧ b.toNat ≤ 0x39 then b.toNat - 0x30
      else if 0x41 ≤ b.toNat ∧ b.toNat ≤ 0x46 then b.toNat - 0x41 + 10
      else if 0x61 ≤ b.toNat ∧ b.toNat ≤ 0x66 then b.toNat - 0x61 + 10
      else 0 := by
  simp only [hexval, BitVec.le_def, BitVec.ofNat_eq_ofNat, BitVec.toNat_ofNat, Nat.reducePow, Nat.reduceMod]
  split_ifs
  · exact Nat.mod_eq_of_lt (by omega)
  · exact Nat.mod_eq_of_lt (by omega)
  · exact Nat.mod_eq_of_lt (by omega)
  · rfl

/-- Settles O47: the ranges are disjoint, so in each the test for it is the one that decides. -/
theorem hexDigitValue : Obligations.HexDigitValue := by
  intro b
  rw [hexval_toNat]
  refine ⟨fun hLow hHigh => ?_, fun hLow hHigh => ?_, fun hLow hHigh => ?_, fun hOutside => ?_⟩
  · rw [if_pos ⟨hLow, hHigh⟩]
  · rw [if_neg (by omega), if_pos ⟨hLow, hHigh⟩]
  · rw [if_neg (by omega), if_neg (by omega), if_pos ⟨hLow, hHigh⟩]
  · rw [if_neg (by omega), if_neg (by omega), if_neg (by omega)]

/-- Concatenation is a number of two places in the base of the low operand's width. -/
theorem toNat_append_eq_mul_add {m n : Nat} (x : BitVec m) (y : BitVec n) :
    (x ++ y).toNat = x.toNat * 2 ^ n + y.toNat := by
  rw [BitVec.toNat_append, ← Nat.shiftLeft_add_eq_or_of_lt y.isLt, Nat.shiftLeft_eq]

/-- Settles O50: a pair is the concatenation of its two nibbles. -/
theorem hexPairResult : Obligations.HexPairResult := fun h l _ =>
  ⟨toNat_append_eq_mul_add (hexval h) (hexval l), rfl⟩

/-- Settles O51: a magnitude is the concatenation of its two pairs. -/
theorem magnitudeResult : Obligations.MagnitudeResult := fun a b c d _ =>
  ⟨toNat_append_eq_mul_add (hexpair a b) (hexpair c d), rfl⟩

/-- The two nibbles of a byte are all of it. -/
theorem append_two_nibbles (v : Byte) : v.extractLsb' 4 4 ++ v.extractLsb' 0 4 = v := by
  rw [BitVec.extractLsb'_append_extractLsb'_eq_extractLsb' (show 4 = 0 + 4 from rfl)]
  exact BitVec.extractLsb'_eq_self

/-- Reading a written digit, over the 16 nibbles. -/
theorem hexval_upperHexDigit (v : Nibble) : hexval (upperHexDigit v) = v := by
  revert v
  decide

/-- Writing a digit that was read, over the 22 hex digits among the 256 bytes. -/
theorem upperHexDigit_hexval (b : Byte) : isHexDigit b = true → upperHexDigit (hexval b) = upperCase b := by
  revert b
  decide

/-- Settles O56, digit by digit: the two places of a pair do not act on each other. -/
theorem hexRoundTrip : Obligations.HexRoundTrip := by
  refine ⟨fun v => ?_, fun h l hHigh hLow => ⟨?_, ?_⟩⟩
  · rw [hexpair, hexval_upperHexDigit, hexval_upperHexDigit, append_two_nibbles]
  · rw [hexpair, extract_append_high (hexval h) (hexval l), upperHexDigit_hexval h hHigh]
  · rw [hexpair, extract_append_low, upperHexDigit_hexval l hLow]

end Sys2Proof.Machine
end

section
/-! The temperature in tenths of a degree (42_thermometer.md R74) against the exact temperature (R73). -/

namespace Sys2Proof.Machine

/-- R74 with the numbers of 00_scope.md R3 written in. -/
theorem tenthsOf_eq (m : Nat) : tenthsOf m = (6280 * (m : Int) + 1023) / 2046 - 500 := by
  simp only [tenthsOf, Config.SCALE_NUM, Config.SCALE_DEN, Config.OFFSET]
  push_cast
  rfl

/-- R73 in tenths, with the denominator of R74. -/
theorem ten_mul_temperature (m : Nat) : 10 * temperature m = 6280 * (m : ℚ) / 2046 - 500 := by
  simp only [temperature, Config.SCALE_NUM, Config.SCALE_DEN, Config.OFFSET, Config.DIVISOR]
  push_cast
  ring

/-- The rounding error in units of 1/2046: at most 1023 by the division, and not 1023, for `6280 * m` and 2046 are even. -/
theorem tenthsOf_error (m : Nat) : |2046 * (tenthsOf m + 500) - 6280 * (m : Int)| ≤ 1022 := by
  rw [tenthsOf_eq, abs_le]
  omega

/-- R74: nearest to the exact value, and no nearer to a tie than 1/2046. -/
theorem tenthsOf_near_temperature (m : Nat) : |(tenthsOf m : ℚ) - 10 * temperature m| ≤ 1 / 2 - 1 / 2046 := by
  have hError : |2046 * ((tenthsOf m : ℚ) + 500) - 6280 * (m : ℚ)| ≤ 1022 := by exact_mod_cast tenthsOf_error m
  rw [abs_le] at hError ⊢
  obtain ⟨hLow, hHigh⟩ := hError
  rw [ten_mul_temperature]
  constructor <;> linarith

/-- Settles O52: 19 bits hold the formula's value, so what is said of `tenthsOf` holds of the output. -/
theorem temperatureInTenthsResult : Obligations.TemperatureInTenthsResult := by
  intro m s
  obtain ⟨hLow, hHigh⟩ := temp10_range m
  refine ⟨(temp10_toInt m).trans (tenthsOf_eq _), hLow, hHigh, ?_, rfl⟩
  rw [temp10_toInt]
  exact tenthsOf_near_temperature m.toNat

/-- R74 (b): 6280/2046 lies between 3 and 4. -/
theorem tenthsOf_succ (m : Nat) : tenthsOf (m + 1) = tenthsOf m + 3 ∨ tenthsOf (m + 1) = tenthsOf m + 4 := by
  rw [tenthsOf_eq, tenthsOf_eq]
  omega

theorem tenthsOf_strictMono : StrictMono tenthsOf :=
  strictMono_nat_of_lt_succ fun m => by
    obtain h | h := tenthsOf_succ m <;> omega

theorem temperature_strictMono : StrictMono temperature := by
  intro m n h
  have hCast : (m : ℚ) < n := by exact_mod_cast h
  have hm := ten_mul_temperature m
  have hn := ten_mul_temperature n
  linarith

/-- Settles O53: both scales rise with the magnitude, the rounded one by 3 or 4 at each count. -/
theorem temperatureRises : Obligations.TemperatureRises := by
  refine ⟨fun m n h => ⟨temperature_strictMono h, ?_⟩, fun m n h => ?_⟩
  · rw [temp10_toInt, temp10_toInt]
    exact tenthsOf_strictMono h
  · rw [temp10_toInt, temp10_toInt, h]
    exact tenthsOf_succ m.toNat

end Sys2Proof.Machine
end

section
/-! The text of a temperature (42_thermometer.md R75): the model's decimal digits against the library's, and the text's length. -/

namespace Sys2Proof.Machine

/-- A number below ten is one digit. -/
theorem decimalText_of_lt {n : Nat} (h : n < 10) : decimalText n = [Config.CH_0 + BitVec.ofNat 8 n] := by
  rw [decimalText]
  split_ifs with hZero
  · subst hZero
    rfl
  · rw [Nat.digits_of_lt 10 n hZero h]
    exact congrArg ([·]) (BitVec.ofNat_add ..)

/-- From ten on, the last digit stands after the text of the others. -/
theorem decimalText_of_ge {n : Nat} (h : 10 ≤ n) :
    decimalText n = decimalText (n / 10) ++ [Config.CH_0 + BitVec.ofNat 8 (n % 10)] := by
  rw [decimalText, decimalText, if_neg (by omega), if_neg (by omega), Nat.digits_def' (by decide) (by omega), List.reverse_cons,
    List.map_append]
  exact congrArg (_ ++ [·]) (BitVec.ofNat_add ..)

/-- The bound on the number of digits cuts nothing off a number that fits it. -/
theorem decDigits_eq_decimalText {k n : Nat} (h : n < 10 ^ (k + 1)) : decDigits (k + 1) n = decimalText n := by
  induction k generalizing n with
  | zero => exact (if_pos h).trans (decimalText_of_lt h).symm
  | succ k ih =>
    rw [decDigits]
    split_ifs with hDigit
    · rw [decimalText_of_lt hDigit]
    · rw [ih (Nat.div_lt_of_lt_mul (by rwa [← Nat.pow_succ'])), ← decimalText_of_ge (by omega)]

theorem dec_eq_decimalText {n : Nat} (h : n < 10 ^ 6) : dec n = decimalText n := decDigits_eq_decimalText h

theorem natAbs_toInt_le (t : T10) : t.toInt.natAbs ≤ 2 ^ 18 := by
  have hLow : -2 ^ 18 ≤ t.toInt := BitVec.le_toInt t
  have hHigh : t.toInt < 2 ^ 18 := BitVec.toInt_lt
  omega

/-- R75's formula with the library's digits, for every 19-bit operand. -/
theorem render_eq (t : T10) :
    render t = (if t.toInt < 0 then [0x2D] else []) ++ decimalText (t.toInt.natAbs / 10) ++ [0x2E] ++
      decimalText (t.toInt.natAbs % 10) := by
  have hAbs := natAbs_toInt_le t
  rw [← dec_eq_decimalText (n := t.toInt.natAbs / 10) (by omega), ← dec_eq_decimalText (n := t.toInt.natAbs % 10) (by omega)]
  rfl

theorem decimalText_length_pos (n : Nat) : 0 < (decimalText n).length := by
  obtain h | h := lt_or_ge n 10
  · simp [decimalText_of_lt h]
  · simp [decimalText_of_ge h]

theorem decimalText_length_le {n k : Nat} (hk : 0 < k) (h : n < 10 ^ k) : (decimalText n).length ≤ k := by
  rw [decimalText]
  split_ifs
  · exact hk
  · rw [List.length_map, List.length_reverse]
    exact (Nat.digits_length_le_iff (by decide) n).mpr h

/-- Every character of a number is a decimal digit. -/
theorem mem_decimalText {n : Nat} {b : Byte} (h : b ∈ decimalText n) : ∃ d < 10, b = Config.CH_0 + BitVec.ofNat 8 d := by
  rw [decimalText] at h
  split_ifs at h
  · exact ⟨0, by decide, List.mem_singleton.mp h⟩
  · obtain ⟨d, hd, rfl⟩ := List.mem_map.mp h
    exact ⟨d, Nat.digits_lt_base (by decide) (List.mem_reverse.mp hd), BitVec.ofNat_add ..⟩

theorem minus_notMem_decimalText (n : Nat) : 0x2D#8 ∉ decimalText n := by
  intro h
  obtain ⟨d, hd, hEq⟩ := mem_decimalText h
  revert d
  decide

/-- Only 0 is written "0". -/
theorem eq_zero_of_decimalText {n : Nat} (h : decimalText n = [0x30]) : n = 0 := by
  obtain hLt | hGe := lt_or_ge n 10
  · have hDigit : ∀ d < 10, [Config.CH_0 + BitVec.ofNat 8 d] = [0x30] → d = 0 := by decide
    exact hDigit n hLt (decimalText_of_lt hLt ▸ h)
  · have hPos := decimalText_length_pos (n / 10)
    have hLength := congrArg List.length h
    rw [decimalText_of_ge hGe, List.length_append] at hLength
    simp only [List.length_singleton] at hLength
    omega

/-- The text has a sign or none, the integer part, the full stop and one digit. -/
theorem render_length (t : T10) :
    (render t).length = (if t.toInt < 0 then 1 else 0) + (decimalText (t.toInt.natAbs / 10)).length + 2 := by
  rw [render_eq, decimalText_of_lt (n := t.toInt.natAbs % 10) (by omega)]
  simp only [List.length_append, apply_ite List.length, List.length_singleton, List.length_nil]

/-- A negative temperature has at most two digits before the full stop, one that is not negative at most five. -/
theorem render_length_range {t : T10} (hLow : -500 ≤ t.toInt) (hHigh : t.toInt ≤ 200653) :
    3 ≤ (render t).length ∧ (render t).length ≤ 7 := by
  have hPos := decimalText_length_pos (t.toInt.natAbs / 10)
  rw [render_length]
  split_ifs with hNeg
  · have hLength : (decimalText (t.toInt.natAbs / 10)).length ≤ 2 := decimalText_length_le (by decide) (by omega)
    omega
  · have hLength : (decimalText (t.toInt.natAbs / 10)).length ≤ 5 := decimalText_length_le (by decide) (by omega)
    omega

/-- A text with a sign is that of a negative number, and both its numbers are 0 only if the temperature is. -/
theorem render_ne_minus_zero (t : T10) : render t ≠ [0x2D, 0x30, 0x2E, 0x30] := by
  intro h
  rw [render_eq] at h
  split_ifs at h with hNeg
  · have hText : [0x2D] ++ decimalText (t.toInt.natAbs / 10) ++ [0x2E] ++ decimalText (t.toInt.natAbs % 10) =
        [0x2D] ++ [0x30] ++ [0x2E] ++ [0x30] := h
    have hOne : (decimalText (t.toInt.natAbs % 10)).length = 1 :=
      congrArg List.length (decimalText_of_lt (Nat.mod_lt _ (by decide)))
    obtain ⟨hSignInt, hDigit⟩ := List.append_inj' hText hOne
    have hInt := List.append_cancel_left (List.append_cancel_right hSignInt)
    have hIntZero := eq_zero_of_decimalText hInt
    have hDigitZero := eq_zero_of_decimalText hDigit
    omega
  · have hMinus : (0x2D : Byte) ∈ [0x2D, 0x30, 0x2E, 0x30] := List.mem_cons_self
    rw [← h] at hMinus
    simp [minus_notMem_decimalText] at hMinus

/-- Settles O54, clause by clause. -/
theorem renderResult : Obligations.RenderResult := by
  intro t s hLow hHigh
  obtain ⟨hShort, hLong⟩ := render_length_range hLow hHigh
  exact ⟨render_eq t, hShort, hLong, render_ne_minus_zero t, rfl⟩

end Sys2Proof.Machine
end

section
/-! The command unit (43_commands.md R80 to R84), and a serialised frame fed back to the assembler one byte a clock (R84 (b)). -/

namespace Sys2Proof.Machine

/-- Settles O58: the row has no guard, and `serialize` appends the terminator pair. -/
theorem serializeResult : Obligations.SerializeResult := fun _ _ => rfl

/-- The instruction of a selector sends its command, in every state. -/
theorem exec_instr (sel : Selector) (s : State) : exec sel.instr s = .next (s.send sel) := by
  cases sel <;> rfl

/-- Settles O57: each selector's instruction sends the selector's command. -/
theorem ledCommandsResult : Obligations.LedCommandsResult := fun s =>
  ⟨⟨rfl, exec_instr .red s⟩, ⟨rfl, exec_instr .green s⟩, ⟨rfl, exec_instr .blue s⟩, ⟨rfl, exec_instr .off s⟩⟩

/-- The first of several steps, on any machine. -/
theorem run_succ_of_step {M : Host.Core} {k : Nat} {s t : M.State} (h : M.step s = .next t) :
    M.run (k + 1) s = M.run k t := by
  rw [Host.Core.run, h]

theorem core_run_succ {k : Nat} {s t : State} (h : step s = .next t) : core.run (k + 1) s = core.run k t :=
  run_succ_of_step (M := core) h

/-- Bytes presented one a clock lead where R57's function leads, and the last clock puts out what it says of the last byte. -/
theorem core_run_clocksOf {bs : List Byte} {b : Byte} {s : State} {a : Abs} {r : Abs × AsmOut} {rest : List Stim}
    (hInv : s.Inv) (ha : s.abs = some a) (hIns : s.ins = clocksOf (bs ++ [b]) ++ rest)
    (hFeed : (a.feedAll (symbolsOf bs)).1.feed (.byte b) = r) :
    ∃ t, core.run (bs.length + 1) s = .next t ∧ t.asm = r.2 ∧ t.int = interpretOut r.2 ∧ t.abs = some r.1 ∧
      t.ins = rest := by
  induction bs generalizing s a with
  | nil =>
    obtain ⟨t, hStep, hAbs, hAsm, hInt, hRest⟩ := stepRefinesAbstractFeed s a _ none rest hInv ha hIns
    rw [Symbol.bits, symbolOf_byte] at hAbs hAsm hInt
    subst hFeed
    exact ⟨t, core_run_succ hStep, hAsm, hInt, hAbs, hRest⟩
  | cons x bs ih =>
    obtain ⟨u, hStep, hAbs, -, -, hRest⟩ := stepRefinesAbstractFeed s a _ none _ hInv ha hIns
    rw [Symbol.bits, symbolOf_byte] at hAbs
    rw [List.length_cons, core_run_succ hStep]
    exact ih (stepKeepsInvariants s u hInv hStep) hAbs hRest hFeed

/-- A line that fits, with its carriage return, leaves the empty assembler waiting for the line feed. -/
theorem Abs.feedAll_init_carriageReturn {f : Frame} (hFits : f.length ≤ Config.CAP) (hNoCr : Config.CR ∉ f) :
    (Abs.init.feedAll (symbolsOf (f ++ [Config.CR]))).1 = ⟨.we, f⟩ := by
  have hLine : Abs.init.feedAll (symbolsOf f) = (⟨.ws, f⟩, List.replicate f.length AsmOut.none) :=
    Abs.feedAll_fitting_line [] f hNoCr (by rwa [List.length_nil, Nat.zero_add])
  rw [symbolsOf_append, Abs.feedAll_append, hLine]
  rfl

/-- Settles O38: the frame and the carriage return are accumulated, and the line feed emits the frame. -/
theorem serializedFrameComesBack : Obligations.SerializedFrameComesBack := by
  intro s f rest hInv hSt hCur hFits hNoCr hIns
  have hAbs : s.abs = some Abs.init := by
    rw [State.abs_of_payload (State.payload_of_cur_zero hCur), hSt]
    rfl
  have hSplit : serialize f = (f ++ [Config.CR]) ++ [Config.LF] := (List.append_assoc f [Config.CR] [Config.LF]).symm
  have hFeed : (Abs.init.feedAll (symbolsOf (f ++ [Config.CR]))).1.feed (.byte Config.LF) = (Abs.init, ⟨some f, none⟩) := by
    rw [Abs.feedAll_init_carriageReturn hFits hNoCr, Abs.feed_we_lf]
  have hRun := core_run_clocksOf hInv hAbs (hSplit ▸ hIns) hFeed
  rwa [List.length_append] at hRun

end Sys2Proof.Machine
end

section
/-! The block never stops (60_exceptions.md R91), and the codes of the diagnostics (R86). -/

namespace Sys2Proof.Machine

/-- Under the invariants every request has a row, and the row answers. -/
theorem runRequest_answers {s : State} (hInv : s.Inv) (r : Request) : ∃ t, runRequest r s = .next t := by
  cases r with
  | symbol sym =>
    obtain ⟨acc, hAcc, -⟩ := hInv.payload
    obtain ⟨t, hNext, -⟩ := runRequest_symbol_refines_feed hInv (State.abs_of_payload hAcc) sym
    exact ⟨t, hNext⟩
  | select sel => exact ⟨_, runRequest_select sel s⟩
  | alone p =>
    have hRow : runRequest (.alone p) s = exec (decodePure p) s := runRequest_of_decode rfl
    rcases exec_decodePure p with ⟨o, hExec⟩ | ⟨v, hExec⟩
    · exact ⟨_, hRow.trans (hExec s)⟩
    · exact ⟨_, hRow.trans (hExec s)⟩

theorem runRequest_keeps_inv {r : Request} {s t : State} (h : runRequest r s = .next t) (hInv : s.Inv) : t.Inv := by
  obtain ⟨i, -, hExec⟩ := runRequest_eq_next h
  exact exec_keeps_inv hExec hInv

/-- Each request leaves a state in which the next one answers. -/
theorem runRequests_answers {s : State} (hInv : s.Inv) (rs : List Request) : ∃ t, runRequests rs s = .next t := by
  induction rs generalizing s with
  | nil => exact ⟨s, rfl⟩
  | cons r rs ih =>
    obtain ⟨u, hFirst⟩ := runRequest_answers hInv r
    rw [runRequests_cons_of_next hFirst]
    exact ih (runRequest_keeps_inv hFirst hInv)

/-- Settles O4: hardware reset always answers, and so do the requests of any other stimulus. -/
theorem stepNeverStops : Obligations.StepNeverStops := by
  intro s hInv
  have hBegin : s.begin.Inv := hInv.of_buffer_eq rfl rfl (.inl rfl)
  rw [step, runStim]
  split_ifs
  · exact ⟨_, rfl⟩
  · exact runRequests_answers hBegin _

theorem AsmDiag.code_ne_zero (d : AsmDiag) : d.code ≠ 0 := by
  cases d <;> decide

theorem IntDiag.code_ne_zero (d : IntDiag) : d.code ≠ 0 := by
  cases d <;> decide

theorem asmDiagPort_eq_zero_iff (x : Option AsmDiag) : asmDiagPort x = 0 ↔ x = none := by
  cases x with
  | none => simp [asmDiagPort]
  | some d => simpa [asmDiagPort] using d.code_ne_zero

theorem intDiagPort_eq_zero_iff (x : Option IntDiag) : intDiagPort x = 0 ↔ x = none := by
  cases x with
  | none => simp [intDiagPort]
  | some d => simpa [intDiagPort] using d.code_ne_zero

/-- Settles O59: the codes are the definition's, and none of them is 0. -/
theorem diagnosticCodes : Obligations.DiagnosticCodes :=
  ⟨rfl, rfl, rfl, rfl, rfl, rfl, rfl, rfl, asmDiagPort_eq_zero_iff, intDiagPort_eq_zero_iff⟩

end Sys2Proof.Machine
end

section
/-! The clock with `rst` = 1 (70_reset_and_hazards.md R100). -/

namespace Sys2Proof.Machine

/-- Hardware reset looks at neither the symbol nor the selector of its clock. -/
@[simp] theorem runStim_rst (sym : Option Sym9) (sel : Option Sel2) (s : State) :
    runStim (.clock true sym sel) s = .next s.hardReset := rfl

/-- Settles O6: the reset is taken before any request, in the state whose outputs are cleared; it sets `st` and `cur` and
keeps the buffer and the stimuli to come. -/
theorem hardwareResetStep : Obligations.HardwareResetStep := by
  intro s sym sel rest hIns
  rw [step_of_ins_cons hIns, runStim_rst]
  rfl

end Sys2Proof.Machine
end

section
/-! The refusal of a row that is not selected, and the stops in states that no run reaches (log entries 1 and 5). -/

namespace Sys2Proof.Machine

theorem guardRow_false (mn : String) (r : Host.Outcome State Fault Refusal) :
    guardRow false mn r = .refused (.rowNotSelected mn) := rfl

/-- Every row but FEED.BADSTATE is guarded by the table's own conditions on it (30_encoding.md R36, R38, R40). -/
theorem exec_eq_guardRow {i : Instr} (hRow : ∀ b, i ≠ .feedBadState b) (s : State) :
    ∃ r, exec i s = guardRow (i.wellFormed && i.selectedIn s.st s.cur) i.mnemonic r := by
  cases i with
  | feedBadState b => exact absurd rfl (hRow b)
  | feedWsCr | feedWeLf => exact ⟨_, rfl⟩
  | feedWsData b | feedWsOverrun b =>
    rw [Instr.wellFormed, Instr.selectedIn, Bool.and_left_comm, ← Bool.and_assoc]
    exact ⟨_, rfl⟩
  | feedWeOther b =>
    rw [Instr.wellFormed, Instr.selectedIn, Bool.and_comm]
    exact ⟨_, rfl⟩
  | intAppShort _ | intAppOther _ | intUnknown _ _ | hexvalUpper _ | hexvalLower _ | hexvalOther _ =>
    rw [Instr.selectedIn, Bool.and_true]
    exact ⟨_, rfl⟩
  | _ => exact ⟨_, (guardRow_of _ _ _ rfl).symm⟩

/-- Settles O30: the row's guard fails. -/
theorem rowNotSelectedIsRefused : Obligations.RowNotSelectedIsRefused := by
  intro i s hNot hRow
  obtain ⟨r, hExec⟩ := exec_eq_guardRow hRow s
  rw [hExec, hNot, guardRow_false]

/-- FEED.WE.LF stops where its copy-out does. -/
theorem exec_feedWeLf_of_memRead_error {s : State} {e : Fault} (hSt : s.st = .we) (h : memRead s s.cur.toNat = .error e) :
    exec .feedWeLf s = .fault e := by
  refine (guardRow_of _ _ _ (by simp [hSt])).trans ?_
  rw [h]

/-- No row is for a data byte in `WS` with a cursor above CAP (30_encoding.md R36). -/
theorem decodeSymbol_ws_of_gt {cur : Cursor} {b : Byte} (hCr : b ≠ Config.CR) (hAbove : Config.CAP < cur.toNat) :
    decodeSymbol .ws cur (0#1 ++ b : BitVec 9) = .error .cursorOutOfRange := by
  rw [decodeSymbol, symbolOf_byte, decodeByteOrMarker, if_neg hCr, if_neg hAbove.not_gt, if_neg hAbove.ne']

theorem runRequest_of_decode_error {r : Request} {e : DecodeError} {s : State} (h : decode s.st s.cur r = .error e) :
    runRequest r s = .refused (.undecodable e) := by
  rw [runRequest, h]

/-- A request that is refused ends the step, whatever requests come after it. -/
theorem runRequests_cons_of_refused {r : Request} {rs : List Request} {s : State} {e : Refusal}
    (h : runRequest r s = .refused e) : runRequests (r :: rs) s = .refused e := by
  rw [runRequests, h]

/-- In a clock without `rst` the symbol's request comes first. -/
theorem runStim_symbol (sym : Sym9) (sel : Option Sel2) (s : State) :
    runStim (.clock false (some sym) sel) s = runRequests (.symbol sym :: sel.toList.map .select) s := rfl

/-- Settles O31: the copy-out faults, and the decoder has no row. -/
theorem stopsInUnreachableStates : Obligations.StopsInUnreachableStates := by
  refine ⟨fun s hSt hCur hUnwritten => ?_, fun s hSt hAbove => ?_, fun s b sel rest hSt hAbove hCr hIns => ?_⟩
  · exact exec_feedWeLf_of_memRead_error hSt (memRead_of_unwritten hCur hUnwritten)
  · exact exec_feedWeLf_of_memRead_error hSt (memRead_of_gt s hAbove)
  · have hDecode : decode s.st s.cur (.symbol (0#1 ++ b)) = .error .cursorOutOfRange := by
      rw [hSt]
      exact decodeSymbol_ws_of_gt hCr hAbove
    rw [step_of_ins_cons hIns, runStim_symbol]
    exact runRequests_cons_of_refused (runRequest_of_decode_error hDecode)

end Sys2Proof.Machine
end

section
/-! The text of an operand outside the range of 42_thermometer.md R75 (log entry 8). -/

namespace Sys2Proof.Machine

/-- A number of at least `10 ^ k` has more than `k` digits. -/
theorem lt_decimalText_length {n k : Nat} (h : 10 ^ k ≤ n) : k < (decimalText n).length := by
  have hNonzero : n ≠ 0 := (Nat.lt_of_lt_of_le (Nat.pow_pos (by decide)) h).ne'
  rw [decimalText, if_neg hNonzero, List.length_map, List.length_reverse]
  exact (Nat.lt_digits_length_iff (by decide) n).mpr h

/-- Below the range two to five digits follow the sign; above it five stand alone. -/
theorem render_length_outside_range {t : T10} (h : t.toInt < -500 ∨ 200653 < t.toInt) :
    5 ≤ (render t).length ∧ (render t).length ≤ 8 := by
  have hAbs := natAbs_toInt_le t
  have hMost : (decimalText (t.toInt.natAbs / 10)).length ≤ 5 := decimalText_length_le (by decide) (by omega)
  rw [render_length]
  rcases h with hBelow | hAbove
  · have hLeast : 1 < (decimalText (t.toInt.natAbs / 10)).length := lt_decimalText_length (by omega)
    rw [if_pos (by omega)]
    omega
  · have hLeast : 4 < (decimalText (t.toInt.natAbs / 10)).length := lt_decimalText_length (by omega)
    rw [if_neg (by omega)]
    omega

/-- Settles O55: the formula holds of every operand, and the row has no guard. -/
theorem renderOutsideRange : Obligations.RenderOutsideRange := by
  intro t s hOutside
  obtain ⟨hShort, hLong⟩ := render_length_outside_range hOutside
  exact ⟨render_eq t, hShort, hLong, rfl⟩

end Sys2Proof.Machine
end
